-- ==== Sys2Proof/Word.lean ====
section
/-! DEFINITION. The machine's word, bit and offset types. -/

namespace Sys2Proof

/-- A host-visible register, a bus word, a key entry: 32 bits (00_scope.md R6). -/
abbrev Word := BitVec 32

/-- One binary digit of a sequence, one cell of BUF: `true` is 1, `false` is 0 (00_scope.md R7). -/
abbrev Bit := Bool

/-- A byte offset inside the 256-byte register window, 0x00 .. 0xFF (20_memory.md R30). -/
abbrev Offset := BitVec 8

end Sys2Proof
end

