-- ==== Sys2Proof/Config.lean ====
section
/-! DEFINITION. What an implementation fixes (00_scope.md section 4), and the values the spec leaves open. -/

namespace Sys2Proof

/-- The implementation parameters, constant for the life of the hardware. State carries them, so that a
statement about every state holds for every conforming implementation (00_scope.md R4, R5). -/
structure Config where
  /-- NMAX: cells of BUF and entries of KEY (00_scope.md R4). -/
  nmax : Nat
  /-- TIE_BIT: what SHRINK gives a window with as many ones as zeros (00_scope.md R5). -/
  tieBit : Bit
deriving DecidableEq, Repr

/-- This hardware takes NMAX = 65536 and TIE_BIT = 0 (00_scope.md R4, R5). -/
def Config.thisHardware : Config := { nmax := 65536, tieBit := false }

/-- The legal range of NMAX, 1 .. 2^24 (00_scope.md R4). Every TIE_BIT is legal. -/
abbrev Config.Legal (c : Config) : Prop := 1 ≤ c.nmax ∧ c.nmax ≤ 2 ^ 24

/-- FREE VALUE. What an unspecified BUF cell holds: the argument pair is the draw (`State.bufEpoch`) and the
cell's index (20_memory.md R40; log entry 3). -/
opaque Config.freeBit : Nat → Nat → Bit

/-- FREE VALUE. What an unspecified KEY entry holds: draw (`State.keyEpoch`) and index
(20_memory.md R40; log entry 3). -/
opaque Config.freeEntry : Nat → Nat → Word

/-- FREE VALUE. How many host transactions are delivered between the acceptance of a command and its
completion, as long as the host has any to deliver; the argument counts the accepted commands
(40_command_control.md R61; log entry 2). -/
opaque Config.freeDelay : Nat → Nat

end Sys2Proof
end

