-- ==== Sys2Proof/Syntax.lean ====
section
/-! DEFINITION. The nine commands, one constructor per row of spec/opcode_table.json. -/

namespace Sys2Proof

/-- A command (30_encoding.md R51). None has an operand field: every operand is implicit (R53). -/
inductive Instr where
  /-- NOP (40_command_control.md R64). -/
  | nop
  /-- EXPAND (41_bit_expander.md R70). -/
  | expand
  /-- SHRINK (41_bit_expander.md R71). -/
  | shrink
  /-- PERMUTE (42_bit_permutation.md R82). -/
  | permute
  /-- REPLAY (42_bit_permutation.md R84). -/
  | replay
  /-- PAD (43_run_length_padder.md R91). -/
  | pad
  /-- DEPAD (43_run_length_padder.md R92). -/
  | depad
  /-- GROUP (44_group_ungroup.md R100). -/
  | group
  /-- UNGROUP (44_group_ungroup.md R101). -/
  | ungroup
deriving DecidableEq, Repr

end Sys2Proof
end

