-- ==== Sys2Proof/Machine/Bus.lean ====
section
/-! DEFINITION. The host's side of the bus: registers of the window, transactions, replies, script lines. Types only. -/

namespace Sys2Proof.Machine

/-- The eighteen registers of the window (20_memory.md R31). -/
inductive Reg where
  | id | cap0 | cap1 | ctrl | status | errcode | errinfo | cmd
  | chunk | exp | zpad | opad | len | klen | bidx | bdata | kidx | kdata
deriving DecidableEq, Repr

/-- A host transaction (20_memory.md R30), with its width in bytes, so that the widths the core
refuses can be said (R32). `v` is the word on the bus. -/
inductive Transaction where
  | read (off : Offset) (size : Nat)
  | write (off : Offset) (size : Nat) (v : Word)
deriving DecidableEq, Repr

/-- What a transaction returns (20_memory.md R30): `Ok(v)` for a read, `Ok` for a write, or `BusError`. -/
inductive Reply where
  | value (v : Word)
  | ok
  | busError
deriving DecidableEq, Repr

/-- One line of the outside world's script: a host script line (30_encoding.md R54, R55) or the
assertion of `rst` (70_reset_and_hazards.md R130). RD, WR, a mnemonic and ACK are single
transactions (`Script.lean` names them); the rest are the pseudo-instructions of R55. Log entry 1. -/
inductive Line where
  /-- One transaction as it stands. -/
  | transact (t : Transaction)
  /-- `WAIT`: RD STATUS until bit 0 reads 0. -/
  | wait
  /-- `WR CTRL, (CTRL or 0x2)`: a RD CTRL, then a WR CTRL of the value read with bit 1 set. -/
  | setAinc
  /-- `LOADBITS`. -/
  | loadBits (bits : List Bit)
  /-- `READBITS`. -/
  | readBits
  /-- `LOADKEY`. -/
  | loadKey (key : List Word)
  /-- `READKEY`. -/
  | readKey
  /-- `CALL <MNEMONIC>`. -/
  | call (i : Instr)
  /-- `rst` is asserted and released. -/
  | rst
deriving DecidableEq, Repr

end Sys2Proof.Machine
end

