-- ==== Sys2Proof/WellFormed.lean ====
section
/-! DEFINITION. Which terms are well-formed: instructions, command words, configurations, script lines. -/

namespace Sys2Proof

/-- Every command is well-formed: it has no field that could hold an illegal value (30_encoding.md R50, R53).
The check is written by cases, so that a later constructor with a field has to say its own. -/
def Instr.wf : Instr → Bool
  | .nop => true
  | .expand => true
  | .shrink => true
  | .permute => true
  | .replay => true
  | .pad => true
  | .depad => true
  | .group => true
  | .ungroup => true

/-- A legal command word: bits 31:8 zero and bits 7:0 at most 0x08 (30_encoding.md R51, R52). -/
def Word.isCommand (w : Word) : Bool := w.toNat / 2 ^ 8 == 0 && w.toNat % 2 ^ 8 ≤ 8

/-- The check of a configuration, as a Bool (00_scope.md R4). -/
def Config.wf (c : Config) : Bool := decide c.Legal

/-- A script line meets what 30_encoding.md R55 requires of it: LOADBITS and LOADKEY at most NMAX
items. A transaction's width and offset are not restricted: a refused access is part of the model. -/
def Machine.Line.wf (c : Config) : Machine.Line → Bool
  | .loadBits bits => bits.length ≤ c.nmax
  | .loadKey key => key.length ≤ c.nmax
  | .transact _ => true
  | .wait => true
  | .setAinc => true
  | .readBits => true
  | .readKey => true
  | .call i => i.wf
  | .rst => true

end Sys2Proof
end

