-- ==== Sys2Proof/Decode.lean ====
section
/-! DEFINITION. Command words: the decoder, total and rejecting by name, and the encoder (30_encoding.md R50 to R52). -/

namespace Sys2Proof

/-- Why a command word is illegal (30_encoding.md R52). -/
inductive Illegal where
  /-- w[31:8] is not zero. -/
  | reservedBits
  /-- w[31:8] is zero and w[7:0] is in 0x09 .. 0xFF. -/
  | reservedOpcode
deriving DecidableEq, Repr

/-- What a command word decodes to. -/
inductive Decoded where
  | command (i : Instr)
  | illegal (why : Illegal)
deriving DecidableEq, Repr

/-- RSV, bits 31:8 of a command word (30_encoding.md R50). -/
def rsvField (w : Word) : BitVec 24 := w.extractLsb' 8 24

/-- OPC, bits 7:0 of a command word (30_encoding.md R50). -/
def opcField (w : Word) : BitVec 8 := w.extractLsb' 0 8

/-- The opcode map for words with RSV = 0 (30_encoding.md R51). -/
def decodeOpc (opc : Nat) : Decoded :=
  match opc with
  | 0x00 => .command .nop
  | 0x01 => .command .expand
  | 0x02 => .command .shrink
  | 0x03 => .command .permute
  | 0x04 => .command .replay
  | 0x05 => .command .pad
  | 0x06 => .command .depad
  | 0x07 => .command .group
  | 0x08 => .command .ungroup
  | _ => .illegal .reservedOpcode

/-- The decoder of 30_encoding.md R51: `if w[31:8] != 0 then ILLEGAL_CMD else case w[7:0] of …`. -/
def decode (w : Word) : Decoded :=
  if rsvField w ≠ 0 then .illegal .reservedBits else decodeOpc (opcField w).toNat

/-- The command word of each mnemonic (30_encoding.md R51, column "command word"). -/
def encode : Instr → Word
  | .nop => 0x00000000#32
  | .expand => 0x00000001#32
  | .shrink => 0x00000002#32
  | .permute => 0x00000003#32
  | .replay => 0x00000004#32
  | .pad => 0x00000005#32
  | .depad => 0x00000006#32
  | .group => 0x00000007#32
  | .ungroup => 0x00000008#32

/-- The command the decoder reads from a table row's word. There is one length, 32 bits
(30_encoding.md R50), and one word, so no byte order (20_memory.md R39): a number that needs more
bits than the row or than a command word has is no instruction. -/
def decodeTableWord (nbits w : Nat) : Option Instr :=
  if nbits ≤ 32 ∧ w < 2 ^ nbits then
    match decode (BitVec.ofNat 32 w) with
    | .command i => some i
    | .illegal _ => none
  else none

end Sys2Proof
end

