-- ==== Sys2Proof/Machine/State.lean ====
section
/-! DEFINITION. The machine's state (10_state.md R10), its reset value (R27), and the reasons a step could stop. -/

namespace Sys2Proof.Machine

/-- Nothing stops this machine: every command word, register access and operand value has a defined
outcome (93_implementation_defined.md section 1), a command's fault is a next state
(60_exceptions.md R119) and a refused transaction is a reply (R122). So there is no fault to raise,
and no constructor (log entry 10). -/
inductive Fault
deriving DecidableEq, Repr

/-- Why a command has no meaning. -/
inductive Refusal where
  /-- Raised only by a rejected arm of `exec`, of which there is none. Safe: the run ends. -/
  | notModelled (mnemonic : String)
deriving DecidableEq, Repr

/-- A memory of cells: pairs of index and content, indexes strictly rising. An index that is not listed
holds an unspecified value (20_memory.md R40; log entries 3, 4). -/
abbrev Memory (α : Type) := List (Nat × α)

/-- The state of the core (10_state.md R10) and, below it, the model's own fields. -/
structure State where
  /-- NMAX and TIE_BIT, read through CAP0 and CAP1 (R23). No step changes them. -/
  cfg : Config
  /-- BUF, the cells that hold a specified bit (R11). -/
  buf : Memory Bit
  /-- LEN (R12). -/
  len : Word
  /-- KEY, the entries that hold a specified word (R13). -/
  key : Memory Word
  /-- KLEN (R14). -/
  klen : Word
  /-- CHUNK (R15). -/
  chunk : Word
  /-- EXP (R16). -/
  exp : Word
  /-- ZPAD (R17). -/
  zpad : Word
  /-- OPAD (R17). -/
  opad : Word
  /-- CMD, the last accepted command word (R18). -/
  cmd : Word
  /-- STATUS bit 0, BUSY (R20). -/
  busy : Bool
  /-- STATUS bit 1, DONE (R20). -/
  done : Bool
  /-- STATUS bit 2, ERR (R20). -/
  err : Bool
  /-- ERRCODE bits 7:0 (R21). -/
  errcode : BitVec 8
  /-- ERRINFO (R21). -/
  errinfo : Word
  /-- CTRL bit 0, IE (R22). -/
  ie : Bool
  /-- CTRL bit 1, AINC (R22). -/
  ainc : Bool
  /-- BIDX (R24). -/
  bidx : Word
  /-- KIDX (R24). -/
  kidx : Word
  /-- The model's own: which draw the unlisted BUF cells hold (20_memory.md R40 (e); log entry 3). -/
  bufEpoch : Nat
  /-- The model's own: which draw the unlisted KEY entries hold (20_memory.md R40 (e); log entry 3). -/
  keyEpoch : Nat
  /-- The model's own: how many more host transactions are delivered before the running command
  completes (40_command_control.md R61; log entry 2). -/
  delay : Nat
  /-- The model's own: accepted commands so far, the argument of `Config.freeDelay` (log entry 2). -/
  accepted : Nat
  /-- The model's own: the lines the outside world has still to perform (log entry 1). -/
  script : List Line
  /-- The model's own: the host's record of transactions and replies, the latest first (log entry 1). -/
  log : List (Transaction × Reply)
deriving DecidableEq, Repr

/-- The state after reset (10_state.md R27): every register at its listed value, both memories
unspecified, the core idle; the model's own fields as log entries 1, 2 and 3 say. -/
def State.reset : State where
  cfg := Config.thisHardware
  buf := []
  len := 0
  key := []
  klen := 0
  chunk := 0
  exp := 0
  zpad := 0
  opad := 0
  cmd := 0
  busy := false
  done := false
  err := false
  errcode := 0
  errinfo := 0
  ie := false
  ainc := false
  bidx := 0
  kidx := 0
  bufEpoch := 0
  keyEpoch := 0
  delay := 0
  accepted := 0
  script := []
  log := []

end Sys2Proof.Machine
end

