-- ==== Sys2Proof/Machine/Ops.lean ====
section
/-! DEFINITION. The named operations over memories and registers: cells, commit, taking a fault and its acknowledgement,
acceptance of a command, reset. -/

namespace Sys2Proof.Machine

/-! ## Memories of cells -/

/-- What is listed at an index, if anything is. -/
def Memory.read {α : Type} : Memory α → Nat → Option α
  | [], _ => none
  | (a, v) :: m, k => if a = k then some v else Memory.read m k

/-- Writes one cell and keeps the indexes rising (20_memory.md R40 (b)). -/
def Memory.write {α : Type} : Memory α → Nat → α → Memory α
  | [], k, v => [(k, v)]
  | (a, w) :: m, k, v =>
    if k < a then (k, v) :: (a, w) :: m
    else if k = a then (k, v) :: m
    else (a, w) :: Memory.write m k v

/-- The cells `k, k+1, …` holding the items of a list in order. -/
def Memory.ofListFrom {α : Type} : Nat → List α → Memory α
  | _, [] => []
  | k, x :: xs => (k, x) :: Memory.ofListFrom (k + 1) xs

/-- Exactly the cells 0 .. |xs|-1, holding `xs`: what a commit leaves (20_memory.md R40 (c)). -/
def Memory.ofList {α : Type} (xs : List α) : Memory α := Memory.ofListFrom 0 xs

/-- The listed indexes rise strictly, from `lo` on, and stay below `hi`. -/
def Memory.risingFrom {α : Type} (lo hi : Nat) : Memory α → Bool
  | [] => true
  | (a, _) :: m => decide (lo ≤ a) && decide (a < hi) && Memory.risingFrom (a + 1) hi m

/-- The canonical form of a memory of `nmax` cells. -/
def Memory.wf {α : Type} (nmax : Nat) (m : Memory α) : Bool := Memory.risingFrom 0 nmax m

/-- BUF[k]: the written bit, or the free value the cell was left with (20_memory.md R40 (e)). -/
def State.bufCell (s : State) (k : Nat) : Bit :=
  (Memory.read s.buf k).getD (Config.freeBit s.bufEpoch k)

/-- KEY[t]: the written word, or the free value the entry was left with (20_memory.md R40 (e)). -/
def State.keyEntry (s : State) (t : Nat) : Word :=
  (Memory.read s.key t).getD (Config.freeEntry s.keyEpoch t)

/-- `BUF[k] <- b` by the host (20_memory.md R34). -/
def State.writeBufCell (k : Nat) (b : Bit) (s : State) : State :=
  { s with buf := Memory.write s.buf k b }

/-- `KEY[t] <- v` by the host (20_memory.md R35). -/
def State.writeKeyEntry (t : Nat) (v : Word) (s : State) : State :=
  { s with key := Memory.write s.key t v }

/-- Auto-increment of BIDX after a successful BDATA access (20_memory.md R36); the sum wraps at 2^32. -/
def State.advanceBidx (s : State) : State :=
  { s with bidx := if s.ainc then s.bidx + 1 else s.bidx }

/-- Auto-increment of KIDX after a successful KDATA access (20_memory.md R36); the sum wraps at 2^32. -/
def State.advanceKidx (s : State) : State :=
  { s with kidx := if s.ainc then s.kidx + 1 else s.kidx }

/-! ## Completion of a command -/

/-- The causes of InvalidArgument (60_exceptions.md R111). -/
inductive Cause where
  | illegalCmd | expNonpos | chunkNonpos | padRange | keyMalformed | capacity
deriving DecidableEq, Repr

/-- The cause codes (60_exceptions.md R111). -/
def Cause.code : Cause → BitVec 8
  | .illegalCmd => 1
  | .expNonpos => 2
  | .chunkNonpos => 3
  | .padRange => 4
  | .keyMalformed => 5
  | .capacity => 6

/-- The writes a command lists at its commit (40_command_control.md R62); `none` is "unchanged". -/
structure Updates where
  /-- The new sequence in BUF; the cells above it become unspecified. -/
  buf : Option (List Bit) := none
  len : Option Word := none
  /-- The new SwapKey in KEY; the entries above it become unspecified. -/
  key : Option (List Word) := none
  klen : Option Word := none
  zpad : Option Word := none
  opad : Option Word := none
deriving DecidableEq, Repr

/-- The outcome of a completion (40_command_control.md R62). -/
inductive Result where
  | fault (cause : Cause) (info : Word)
  | success (updates : Updates)
deriving DecidableEq, Repr

/-- Successful completion (40_command_control.md R63): the updates, the cells and entries above them
unspecified (20_memory.md R40 (c)), BUSY <- 0, DONE <- 1. -/
def State.commit (u : Updates) (s : State) : State :=
  { s with
    buf := match u.buf with
      | some bits => Memory.ofList bits
      | none => s.buf
    bufEpoch := if u.buf.isSome then s.bufEpoch + 1 else s.bufEpoch
    len := u.len.getD s.len
    key := match u.key with
      | some words => Memory.ofList words
      | none => s.key
    keyEpoch := if u.key.isSome then s.keyEpoch + 1 else s.keyEpoch
    klen := u.klen.getD s.klen
    zpad := u.zpad.getD s.zpad
    opad := u.opad.getD s.opad
    busy := false
    done := true }

/-- Taking an exception, the one shared operation: faulted completion (60_exceptions.md R119). Only
ERRCODE, ERRINFO, ERR and BUSY are written; control goes nowhere. -/
def State.takeFault (cause : Cause) (info : Word) (s : State) : State :=
  { s with errcode := cause.code, errinfo := info, err := true, busy := false }

/-- The return from an exception: the host's acknowledgement (60_exceptions.md R120). -/
def State.acknowledge (s : State) : State :=
  { s with err := false, errcode := 0, errinfo := 0 }

/-- The host clears STATUS.DONE (10_state.md R20). -/
def State.clearDone (s : State) : State :=
  { s with done := false }

/-- The one enabled step of a busy core, given its outcome (40_command_control.md R62). -/
def State.complete (r : Result) (s : State) : State :=
  match r with
  | .fault cause info => s.takeFault cause info
  | .success u => s.commit u

/-! ## Acceptance and reset -/

/-- An accepted write of `w` to CMD (40_command_control.md R60). The open time of the completion is
drawn here (R61; log entry 2). -/
def State.accept (w : Word) (s : State) : State :=
  { s with
    cmd := w
    busy := true
    done := false
    delay := Config.freeDelay s.accepted
    accepted := s.accepted + 1 }

/-- `rst` is asserted and released (70_reset_and_hazards.md R130): the whole core at its reset values,
both memories drawn afresh. The parameters stay, and what is not the core's (the host's script and
record) stays too (log entry 6). -/
def State.assertReset (s : State) : State :=
  { State.reset with
    cfg := s.cfg
    bufEpoch := s.bufEpoch + 1
    keyEpoch := s.keyEpoch + 1
    accepted := s.accepted
    script := s.script
    log := s.log }

/-- The state in which command word `w` has been accepted from an unfaulted core and completes next:
what `withFetchWord` sets (log entry 12). -/
def State.present (w : Word) (s : State) : State :=
  { s.acknowledge with cmd := w, busy := true, done := false, delay := 0 }

end Sys2Proof.Machine
end

