-- ==== Sys2Proof/Machine/Operands.lean ====
section
/-! DEFINITION. How commands read their implicit operands (30_encoding.md R53), and the narrowing of results to registers. -/

namespace Sys2Proof.Machine

/-- `signed32(REG)`: `REG` if `REG < 2^31`, else `REG - 2^32` (00_scope.md section 5.1, R6).
Commands read EXP and CHUNK this way (10_state.md R15, R16). -/
def signed32 (w : Word) : Int :=
  if w.toNat < 2 ^ 31 then (w.toNat : Int) else (w.toNat : Int) - 2 ^ 32

/-- `s = BUF[0..LEN)`, the working sequence (10_state.md R11, R12). -/
def State.bufSeq (s : State) : List Bit := (List.range s.len.toNat).map s.bufCell

/-- `key = KEY[0..KLEN)`, the SwapKey, as numbers (10_state.md R13, R14). -/
def State.keySeq (s : State) : List Nat := (List.range s.klen.toNat).map fun t => (s.keyEntry t).toNat

/-- `zext_32` of one bit (20_memory.md R34). -/
def zextBit (b : Bit) : Word := if b then 1 else 0

/-- `v[i]`, bit `i` of a bus word. -/
def wordBit (v : Word) (i : Nat) : Bit := v.getLsbD i

/-- A length or a count in a register. Results are at most NMAX, so nothing is lost (00_scope.md R4). -/
def toReg (n : Nat) : Word := BitVec.ofNat 32 n

/-- The required length CAPACITY reports, saturated to 2^32 - 1 (60_exceptions.md R117). -/
def saturate32 (n : Nat) : Word := toReg (min n (2 ^ 32 - 1))

end Sys2Proof.Machine
end

