-- ==== Sys2Proof/Machine/BitExpander.lean ====
section
/-! DEFINITION. The bit_expander: EXPAND and SHRINK (41_bit_expander.md). -/

namespace Sys2Proof.Machine

/-- Every bit `e` times, in order (41_bit_expander.md R70). -/
def expandSeq (s : List Bit) (e : Nat) : List Bit := s.flatMap fun b => List.replicate e b

/-- `Majority(ones, zeros)` (41_bit_expander.md R72). -/
def majority (tie : Bit) (ones zeros : Nat) : Bit :=
  if ones > zeros then true else if zeros > ones then false else tie

/-- `ceil(n / e)` for e > 0 (00_scope.md section 5.1). -/
def ceilDiv (n e : Nat) : Nat := (n + e - 1) / e

/-- Window `q`, `s[q*e .. min(q*e + e, n))` (41_bit_expander.md R71). -/
def window (s : List Bit) (e q : Nat) : List Bit := (s.drop (q * e)).take e

/-- The majority bit of one window (41_bit_expander.md R71, R72). -/
def windowBit (tie : Bit) (win : List Bit) : Bit :=
  majority tie (win.count true) (win.length - win.count true)

/-- The majority of every window in order (41_bit_expander.md R71). -/
def shrinkSeq (tie : Bit) (s : List Bit) (e : Nat) : List Bit :=
  (List.range (ceilDiv s.length e)).map fun q => windowBit tie (window s e q)

/-- The outcome of EXPAND (41_bit_expander.md R70): EXP_NONPOS, then CAPACITY. -/
def expandResult (s : State) : Result :=
  if signed32 s.exp ≤ 0 then .fault .expNonpos s.exp
  else
    let e := (signed32 s.exp).toNat
    let n := s.len.toNat
    if n * e > s.cfg.nmax then .fault .capacity (saturate32 (n * e))
    else .success { buf := some (expandSeq s.bufSeq e), len := some (toReg (n * e)) }

/-- EXPAND (41_bit_expander.md R70). -/
def execExpand (s : State) : Host.Outcome State Fault Refusal := .next (s.complete (expandResult s))

/-- The outcome of SHRINK (41_bit_expander.md R71): EXP_NONPOS only. -/
def shrinkResult (s : State) : Result :=
  if signed32 s.exp ≤ 0 then .fault .expNonpos s.exp
  else
    let e := (signed32 s.exp).toNat
    .success {
      buf := some (shrinkSeq s.cfg.tieBit s.bufSeq e)
      len := some (toReg (ceilDiv s.len.toNat e)) }

/-- SHRINK (41_bit_expander.md R71). -/
def execShrink (s : State) : Host.Outcome State Fault Refusal := .next (s.complete (shrinkResult s))

end Sys2Proof.Machine
end

