-- ==== Sys2Proof/Machine/CommandControl.lean ====
section
/-! DEFINITION. NOP (40_command_control.md R64). -/

namespace Sys2Proof.Machine

/-- NOP commits with no updates (40_command_control.md R64). -/
def nopResult : Result := .success {}

/-- NOP (40_command_control.md R64). -/
def execNop (s : State) : Host.Outcome State Fault Refusal := .next (s.complete nopResult)

end Sys2Proof.Machine
end

