-- ==== Sys2Proof/Machine/BitPermutation.lean ====
section
/-! DEFINITION. The bit_permutation_engine and the swap_replay_unit: PERMUTE and REPLAY (42_bit_permutation.md). -/

namespace Sys2Proof.Machine

/-- `swap(s, a, b)`: exchange the elements at `a` and `b` (00_scope.md section 5.1). -/
def swapAt (s : List Bit) (a b : Nat) : List Bit :=
  match s[a]?, s[b]? with
  | some x, some y => (s.set a y).set b x
  | _, _ => s

/-- The substitution cursor: `none` is "unset" (42_bit_permutation.md R81). -/
abbrev Cursor := Option Nat

/-- CursorStep at a transition index `i` with chunk size `c` (42_bit_permutation.md R81): the new cursor and
the swap, if there is one. -/
def cursorStep (c : Nat) (cursor : Cursor) (i : Nat) : Cursor × Option (Nat × Nat) :=
  match cursor with
  | none => (some i, none)
  | some j => if (j + 1) % c = 0 then (some i, none) else (some (j + 1), some (j + 1, i + 1))

/-- The local values of the scan (42_bit_permutation.md R80, R82). -/
structure Scan where
  seq : List Bit
  key : List Nat
  steps : Nat
  cursor : Cursor
deriving DecidableEq, Repr

/-- One visited index of the scan, compared on the sequence as it now stands (42_bit_permutation.md R80, R82). -/
def scanStep (c : Nat) (st : Scan) (i : Nat) : Scan :=
  if st.seq[i]? ≠ st.seq[i + 1]? then
    let r := cursorStep c st.cursor i
    { seq := match r.2 with
        | some (a, b) => swapAt st.seq a b
        | none => st.seq
      key := st.key ++ [st.steps]
      steps := 0
      cursor := r.1 }
  else { st with steps := st.steps + 1 }

/-- What the scan of `s` holds when it comes to index `i` (42_bit_permutation.md R80). -/
def scanUpTo (s : List Bit) (c i : Nat) : Scan :=
  (List.range i).foldl (scanStep c) { seq := s, key := [], steps := 0, cursor := none }

/-- The scan over the indexes 0, 1, ..., n-2 (42_bit_permutation.md R80). -/
def permuteScan (s : List Bit) (c : Nat) : Scan := scanUpTo s c (s.length - 1)

/-- The transitions of a sequence as it stands: the indexes whose bit differs from the next one
(00_scope.md section 6; 42_bit_permutation.md R85 (e), "the number of transitions of b itself"). -/
def transitions (s : List Bit) : List Nat :=
  (List.range (s.length - 1)).filter fun i => s[i]? != s[i + 1]?

/-- The transitions of the scan on the live sequence, each index judged on the sequence as the scan finds it
there (42_bit_permutation.md R80, R85 (e)). -/
def liveTransitions (s : List Bit) (c : Nat) : List Nat :=
  (List.range (s.length - 1)).filter fun i => (scanUpTo s c i).seq[i]? != (scanUpTo s c i).seq[i + 1]?

/-- `PermuteCore(s, c) -> (s', key)` (42_bit_permutation.md R82). Its properties, with `replayCore`, are R85:
the inverse, the bounds of the key, that `s'` is a permutation of `s`, the sequences it leaves as they are, and
that the key records the `liveTransitions`. -/
def permuteCore (s : List Bit) (c : Nat) : List Bit × List Nat :=
  ((permuteScan s c).seq, (permuteScan s c).key)

/-- The outcome of PERMUTE (42_bit_permutation.md R82): CHUNK_NONPOS only; LEN is not written. -/
def permuteResult (s : State) : Result :=
  if signed32 s.chunk ≤ 0 then .fault .chunkNonpos s.chunk
  else
    let r := permuteCore s.bufSeq (signed32 s.chunk).toNat
    .success {
      buf := some r.1
      key := some (r.2.map toReg)
      klen := some (toReg r.2.length) }

/-- PERMUTE (42_bit_permutation.md R82). -/
def execPermute (s : State) : Host.Outcome State Fault Refusal := .next (s.complete (permuteResult s))

/-- The positions of a key whose next entry counts from `base` on. -/
def keyPositionsFrom (base : Nat) : List Nat → List Nat
  | [] => []
  | k :: ks => (base + k) :: keyPositionsFrom (base + k + 1) ks

/-- `p[0] = key[0]`, `p[t] = p[t-1] + 1 + key[t]`, in unbounded integers (42_bit_permutation.md R83). -/
def keyPositions (key : List Nat) : List Nat := keyPositionsFrom 0 key

/-- The key is well-formed for length `n`: it is empty, or `p[m-1] <= n - 2` (42_bit_permutation.md R83). -/
def keyWellFormed (key : List Nat) (n : Nat) : Bool :=
  match (keyPositions key).getLast? with
  | none => true
  | some p => p + 2 ≤ n

/-- `bad(key, n)`: the least `t` with `p[t] > n - 2` (42_bit_permutation.md R83). -/
def badEntry (key : List Nat) (n : Nat) : Nat := (keyPositions key).findIdx fun p => n < p + 2

/-- The swaps the cursor makes over the transition indexes, in forward order (42_bit_permutation.md R84). -/
def swapsFrom (c : Nat) (cursor : Cursor) : List Nat → List (Nat × Nat)
  | [] => []
  | p :: ps => (cursorStep c cursor p).2.toList ++ swapsFrom c (cursorStep c cursor p).1 ps

/-- Swaps applied from the last to the first (42_bit_permutation.md R84). -/
def undoSwaps (swaps : List (Nat × Nat)) (s : List Bit) : List Bit :=
  swaps.foldr (fun ab t => swapAt t ab.1 ab.2) s

/-- `ReplayCore(s, key, c) -> s'` (42_bit_permutation.md R84). -/
def replayCore (s : List Bit) (key : List Nat) (c : Nat) : List Bit :=
  undoSwaps (swapsFrom c none (keyPositions key)) s

/-- The outcome of REPLAY (42_bit_permutation.md R84): CHUNK_NONPOS, then KEY_MALFORMED; LEN, KEY and KLEN
are not written. -/
def replayResult (s : State) : Result :=
  if signed32 s.chunk ≤ 0 then .fault .chunkNonpos s.chunk
  else if keyWellFormed s.keySeq s.len.toNat = false then
    .fault .keyMalformed (toReg (badEntry s.keySeq s.len.toNat))
  else .success { buf := some (replayCore s.bufSeq s.keySeq (signed32 s.chunk).toNat) }

/-- REPLAY (42_bit_permutation.md R84). -/
def execReplay (s : State) : Host.Outcome State Fault Refusal := .next (s.complete (replayResult s))

end Sys2Proof.Machine
end

