-- ==== Sys2Proof/Machine/RunLengthPadder.lean ====
section
/-! DEFINITION. The run_length_padder: PAD and DEPAD (43_run_length_padder.md). -/

namespace Sys2Proof.Machine

/-- The tail of a sequence (43_run_length_padder.md R90). -/
structure TailRuns where
  /-- Polarity of the trailing run. -/
  first : Bit
  /-- The diff index, where the trailing run begins. -/
  d : Nat
  /-- Length of the trailing run. -/
  l1 : Nat
  /-- Length of the penultimate run, 0 when the sequence is uniform. -/
  l2 : Nat
deriving DecidableEq, Repr

/-- How many bits at the end of a sequence are `b`. -/
def trailingRun (b : Bit) (s : List Bit) : Nat := (s.reverse.takeWhile (· == b)).length

/-- `TailRuns(s)` for a sequence that is not empty (43_run_length_padder.md R90). -/
def tailRuns (s : List Bit) : TailRuns :=
  let first := s.getLastD false
  let d := s.length - trailingRun first s
  { first := first
    d := d
    l1 := s.length - d
    l2 := if d = 0 then 0 else trailingRun (!first) (s.take d) }

/-- `(c - (l mod c)) mod c`: the least number that makes `l` a multiple of `c` (43_run_length_padder.md R91). -/
def padBits (l c : Nat) : Nat := (c - l % c) % c

/-- What PadCore returns: the padded sequence and the two counts (43_run_length_padder.md R91). -/
structure Padded where
  out : List Bit
  zp : Nat
  op : Nat
deriving DecidableEq, Repr

/-- `PadCore(s, c) -> (out, zp, op)` (43_run_length_padder.md R91). -/
def padCore (s : List Bit) (c : Nat) : Padded :=
  if s.length = 0 then { out := [], zp := 0, op := 0 }
  else
    let t := tailRuns s
    let p1 := padBits t.l1 c
    let p2 := if t.d = 0 then 0 else padBits t.l2 c
    { out := s.take t.d ++ List.replicate p2 (!t.first) ++ s.drop t.d ++ List.replicate p1 t.first
      zp := if t.first = false then p1 else p2
      op := if t.first = false then p2 else p1 }

/-- The outcome of PAD (43_run_length_padder.md R91): CHUNK_NONPOS, then CAPACITY. -/
def padResult (s : State) : Result :=
  if signed32 s.chunk ≤ 0 then .fault .chunkNonpos s.chunk
  else
    let r := padCore s.bufSeq (signed32 s.chunk).toNat
    if r.out.length > s.cfg.nmax then .fault .capacity (saturate32 r.out.length)
    else .success {
      buf := some r.out
      len := some (toReg r.out.length)
      zpad := some (toReg r.zp)
      opad := some (toReg r.op) }

/-- PAD (43_run_length_padder.md R91). -/
def execPad (s : State) : Host.Outcome State Fault Refusal := .next (s.complete (padResult s))

/-- The backward loop of DEPAD over a sequence written from its tail on, with the remaining counts of
zeros and ones; what is kept, from the tail on (43_run_length_padder.md R92). -/
def depadBackward : List Bit → Nat → Nat → List Bit
  | [], _, _ => []
  | b :: bs, z, o =>
    if b = false ∧ z > 0 then depadBackward bs (z - 1) o
    else if b = true ∧ o > 0 then depadBackward bs z (o - 1)
    else b :: depadBackward bs z o

/-- `DepadCore(s, z, o) -> out` (43_run_length_padder.md R92). -/
def depadCore (s : List Bit) (z o : Nat) : List Bit := (depadBackward s.reverse z o).reverse

/-- The outcome of DEPAD (43_run_length_padder.md R92): CHUNK_NONPOS, PAD_RANGE on ZPAD, PAD_RANGE on OPAD;
ZPAD and OPAD are not written. -/
def depadResult (s : State) : Result :=
  if signed32 s.chunk ≤ 0 then .fault .chunkNonpos s.chunk
  else if (s.zpad.toNat : Int) ≥ signed32 s.chunk then .fault .padRange 0
  else if (s.opad.toNat : Int) ≥ signed32 s.chunk then .fault .padRange 1
  else
    let out := depadCore s.bufSeq s.zpad.toNat s.opad.toNat
    .success { buf := some out, len := some (toReg out.length) }

/-- DEPAD (43_run_length_padder.md R92). -/
def execDepad (s : State) : Host.Outcome State Fault Refusal := .next (s.complete (depadResult s))

end Sys2Proof.Machine
end

