-- ==== Sys2Proof/Machine/GroupUngroup.lean ====
section
/-! DEFINITION. The two chained contracts: GROUP and UNGROUP (44_group_ungroup.md). -/

namespace Sys2Proof.Machine

/-- The outcome of GROUP (44_group_ungroup.md R100): CHUNK_NONPOS, then CAPACITY; one commit. -/
def groupResult (s : State) : Result :=
  if signed32 s.chunk ≤ 0 then .fault .chunkNonpos s.chunk
  else
    let c := (signed32 s.chunk).toNat
    let g := permuteCore s.bufSeq c
    let r := padCore g.1 c
    if r.out.length > s.cfg.nmax then .fault .capacity (saturate32 r.out.length)
    else .success {
      buf := some r.out
      len := some (toReg r.out.length)
      key := some (g.2.map toReg)
      klen := some (toReg g.2.length)
      zpad := some (toReg r.zp)
      opad := some (toReg r.op) }

/-- GROUP (44_group_ungroup.md R100). -/
def execGroup (s : State) : Host.Outcome State Fault Refusal := .next (s.complete (groupResult s))

/-- The outcome of UNGROUP (44_group_ungroup.md R101): CHUNK_NONPOS, PAD_RANGE on ZPAD, PAD_RANGE on OPAD,
KEY_MALFORMED against the depadded length; KEY, KLEN, ZPAD and OPAD are not written. -/
def ungroupResult (s : State) : Result :=
  if signed32 s.chunk ≤ 0 then .fault .chunkNonpos s.chunk
  else if (s.zpad.toNat : Int) ≥ signed32 s.chunk then .fault .padRange 0
  else if (s.opad.toNat : Int) ≥ signed32 s.chunk then .fault .padRange 1
  else
    let s1 := depadCore s.bufSeq s.zpad.toNat s.opad.toNat
    if keyWellFormed s.keySeq s1.length = false then
      .fault .keyMalformed (toReg (badEntry s.keySeq s1.length))
    else .success {
      buf := some (replayCore s1 s.keySeq (signed32 s.chunk).toNat)
      len := some (toReg s1.length) }

/-- UNGROUP (44_group_ungroup.md R101). -/
def execUngroup (s : State) : Host.Outcome State Fault Refusal := .next (s.complete (ungroupResult s))

end Sys2Proof.Machine
end

