-- ==== Sys2Proof/Machine/Dispatch.lean ====
section
/-! DEFINITION. One arm per command: which meaning runs it (40_command_control.md R62). -/

namespace Sys2Proof.Machine

/-- The completion of a decoded command (40_command_control.md R62). -/
def exec (i : Instr) (s : State) : Host.Outcome State Fault Refusal :=
  match i with
  | .nop => Sys2Proof.Machine.execNop s
  | .expand => Sys2Proof.Machine.execExpand s
  | .shrink => Sys2Proof.Machine.execShrink s
  | .permute => Sys2Proof.Machine.execPermute s
  | .replay => Sys2Proof.Machine.execReplay s
  | .pad => Sys2Proof.Machine.execPad s
  | .depad => Sys2Proof.Machine.execDepad s
  | .group => Sys2Proof.Machine.execGroup s
  | .ungroup => Sys2Proof.Machine.execUngroup s

end Sys2Proof.Machine
end

