-- ==== Sys2Proof/Machine/Completion.lean ====
section
/-! DEFINITION. The core's one step: completion of the word in CMD (40_command_control.md R61, R62). -/

namespace Sys2Proof.Machine

/-- The completion of the accepted command word (40_command_control.md R62): an illegal word faults with
ILLEGAL_CMD before anything else is looked at (60_exceptions.md R112). -/
def completeCommand (s : State) : Host.Outcome State Fault Refusal :=
  match decode s.cmd with
  | .command i => exec i s
  | .illegal _ => .next (s.complete (.fault .illegalCmd s.cmd))

end Sys2Proof.Machine
end

