-- ==== Sys2Proof/Machine/Flags.lean ====
section
/-! DEFINITION. The status and control registers as the words a host reads, and the interrupt output. -/

namespace Sys2Proof.Machine

/-- STATUS as read: BUSY in bit 0, DONE in bit 1, ERR in bit 2, the rest zero (10_state.md R20). -/
def State.statusWord (s : State) : Word :=
  zextBit s.busy ||| (zextBit s.done <<< 1) ||| (zextBit s.err <<< 2)

/-- CTRL as read: IE in bit 0, AINC in bit 1, the rest zero (10_state.md R22). -/
def State.ctrlWord (s : State) : Word := zextBit s.ie ||| (zextBit s.ainc <<< 1)

/-- ERRCODE as read: the cause code in bits 7:0, the rest zero (10_state.md R21). -/
def State.errcodeWord (s : State) : Word := s.errcode.setWidth 32

/-- ID: the letters "VCB" and the command-set version 1 (10_state.md R23). -/
def idWord : Word := 0x56434201#32

/-- CAP0 = NMAX (10_state.md R23). -/
def State.cap0Word (s : State) : Word := toReg s.cfg.nmax

/-- CAP1[0] = TIE_BIT, the rest zero (10_state.md R23). -/
def State.cap1Word (s : State) : Word := zextBit s.cfg.tieBit

/-- The interrupt output, a level: `CTRL.IE and (STATUS.DONE or STATUS.ERR)` (60_exceptions.md R124). -/
def State.irq (s : State) : Bool := s.ie && (s.done || s.err)

/-- A write to CTRL stores v[1:0] (20_memory.md R38). -/
def State.writeCtrl (v : Word) (s : State) : State :=
  { s with ie := wordBit v 0, ainc := wordBit v 1 }

/-- A write to STATUS clears DONE where v[1] = 1 and acknowledges a fault where v[2] = 1; no other bit of
v acts (10_state.md R20, 20_memory.md R38, 60_exceptions.md R120). -/
def State.writeStatus (v : Word) (s : State) : State :=
  let s1 := if wordBit v 1 then s.clearDone else s
  if wordBit v 2 then s1.acknowledge else s1

end Sys2Proof.Machine
end

