-- ==== Sys2Proof/Machine/HostBus.lean ====
section
/-! DEFINITION. Host transactions on the register window (20_memory.md R30 to R38, 40_command_control.md R60). -/

namespace Sys2Proof.Machine

/-- The register map (20_memory.md R31). -/
def Reg.offset : Reg → Offset
  | .id => 0x00
  | .cap0 => 0x04
  | .cap1 => 0x08
  | .ctrl => 0x0C
  | .status => 0x10
  | .errcode => 0x14
  | .errinfo => 0x18
  | .cmd => 0x1C
  | .chunk => 0x20
  | .exp => 0x24
  | .zpad => 0x28
  | .opad => 0x2C
  | .len => 0x30
  | .klen => 0x34
  | .bidx => 0x38
  | .bdata => 0x3C
  | .kidx => 0x40
  | .kdata => 0x44

/-- Which register stands at an offset, if one does (20_memory.md R31). -/
def regAt (off : Offset) : Option Reg :=
  match off.toNat with
  | 0x00 => some .id
  | 0x04 => some .cap0
  | 0x08 => some .cap1
  | 0x0C => some .ctrl
  | 0x10 => some .status
  | 0x14 => some .errcode
  | 0x18 => some .errinfo
  | 0x1C => some .cmd
  | 0x20 => some .chunk
  | 0x24 => some .exp
  | 0x28 => some .zpad
  | 0x2C => some .opad
  | 0x30 => some .len
  | 0x34 => some .klen
  | 0x38 => some .bidx
  | 0x3C => some .bdata
  | 0x40 => some .kidx
  | 0x44 => some .kdata
  | _ => none

/-- The register an access of `size` bytes at `off` reaches: none when it is misaligned, not 4 bytes
wide, or at 0x48 or above (20_memory.md R32). -/
def selectReg (off : Offset) (size : Nat) : Option Reg :=
  if off.toNat % 4 ≠ 0 ∨ size ≠ 4 ∨ off.toNat ≥ 0x48 then none else regAt off

/-- The operand group, offsets 0x20 .. 0x44 (20_memory.md R31). -/
def Reg.isOperand : Reg → Bool
  | .id | .cap0 | .cap1 | .ctrl | .status | .errcode | .errinfo | .cmd => false
  | .chunk | .exp | .zpad | .opad | .len | .klen | .bidx | .bdata | .kidx | .kdata => true

/-- A read of a reachable register (20_memory.md R34, R35, R36, R38). -/
def readReg (r : Reg) (s : State) : State × Reply :=
  match r with
  | .id => (s, .value idWord)
  | .cap0 => (s, .value s.cap0Word)
  | .cap1 => (s, .value s.cap1Word)
  | .ctrl => (s, .value s.ctrlWord)
  | .status => (s, .value s.statusWord)
  | .errcode => (s, .value s.errcodeWord)
  | .errinfo => (s, .value s.errinfo)
  | .cmd => (s, .value s.cmd)
  | .chunk => (s, .value s.chunk)
  | .exp => (s, .value s.exp)
  | .zpad => (s, .value s.zpad)
  | .opad => (s, .value s.opad)
  | .len => (s, .value s.len)
  | .klen => (s, .value s.klen)
  | .bidx => (s, .value s.bidx)
  | .bdata =>
    if s.bidx.toNat ≥ s.cfg.nmax then (s, .busError)
    else (s.advanceBidx, .value (zextBit (s.bufCell s.bidx.toNat)))
  | .kidx => (s, .value s.kidx)
  | .kdata =>
    if s.kidx.toNat ≥ s.cfg.nmax then (s, .busError)
    else (s.advanceKidx, .value (s.keyEntry s.kidx.toNat))

/-- A write of `w` to CMD (40_command_control.md R60): refused while BUSY = 1 or ERR = 1. -/
def writeCmd (w : Word) (s : State) : State × Reply :=
  if s.busy || s.err then (s, .busError) else (s.accept w, .ok)

/-- A write to a reachable register (20_memory.md R34, R35, R36, R37, R38, 40_command_control.md R60). -/
def writeReg (r : Reg) (v : Word) (s : State) : State × Reply :=
  match r with
  | .id => (s, .ok)
  | .cap0 => (s, .ok)
  | .cap1 => (s, .ok)
  | .ctrl => (s.writeCtrl v, .ok)
  | .status => (s.writeStatus v, .ok)
  | .errcode => (s, .ok)
  | .errinfo => (s, .ok)
  | .cmd => writeCmd v s
  | .chunk => ({ s with chunk := v }, .ok)
  | .exp => ({ s with exp := v }, .ok)
  | .zpad => ({ s with zpad := v }, .ok)
  | .opad => ({ s with opad := v }, .ok)
  | .len => if v.toNat > s.cfg.nmax then (s, .busError) else ({ s with len := v }, .ok)
  | .klen => if v.toNat > s.cfg.nmax then (s, .busError) else ({ s with klen := v }, .ok)
  | .bidx => ({ s with bidx := v }, .ok)
  | .bdata =>
    if s.bidx.toNat ≥ s.cfg.nmax then (s, .busError)
    else ((s.writeBufCell s.bidx.toNat (wordBit v 0)).advanceBidx, .ok)
  | .kidx => ({ s with kidx := v }, .ok)
  | .kdata =>
    if s.kidx.toNat ≥ s.cfg.nmax then (s, .busError)
    else ((s.writeKeyEntry s.kidx.toNat v).advanceKidx, .ok)

/-- `HostRead(off)` of `size` bytes (20_memory.md R30), with the checks of R32 and the BUSY lock of R33. -/
def hostRead (off : Offset) (size : Nat) (s : State) : State × Reply :=
  match selectReg off size with
  | none => (s, .busError)
  | some r => if s.busy && r.isOperand then (s, .busError) else readReg r s

/-- `HostWrite(off, v)` of `size` bytes (20_memory.md R30), with the checks of R32 and the BUSY lock of R33. -/
def hostWrite (off : Offset) (size : Nat) (v : Word) (s : State) : State × Reply :=
  match selectReg off size with
  | none => (s, .busError)
  | some r => if s.busy && r.isOperand then (s, .busError) else writeReg r v s

/-- One host transaction (20_memory.md R30). -/
def transact (t : Transaction) (s : State) : State × Reply :=
  match t with
  | .read off size => hostRead off size s
  | .write off size v => hostWrite off size v s

end Sys2Proof.Machine
end

