-- ==== Sys2Proof/Machine/Script.lean ====
section
/-! DEFINITION. The host's script lines as the transactions they stand for (30_encoding.md R54, R55). -/

namespace Sys2Proof.Machine

/-- The transaction of `RD <REG>` (30_encoding.md R54). -/
def rdOf (r : Reg) : Transaction := .read r.offset 4

/-- The transaction of `WR <REG>, <value>` (30_encoding.md R54). -/
def wrOf (r : Reg) (v : Word) : Transaction := .write r.offset 4 v

/-- `RD <REG>` (30_encoding.md R54). -/
def Line.rd (r : Reg) : Line := .transact (rdOf r)

/-- `WR <REG>, <value>` (30_encoding.md R54). -/
def Line.wr (r : Reg) (v : Word) : Line := .transact (wrOf r v)

/-- `<MNEMONIC>`: HostWrite(0x1C, word(MNEMONIC)) (30_encoding.md R54). -/
def Line.issue (i : Instr) : Line := .wr .cmd (encode i)

/-- `ACK`: WR STATUS, 0x00000006 (30_encoding.md R55). -/
def Line.ack : Line := .wr .status 0x00000006#32

/-- The first transaction a line performs; none for `rst`, which is no transaction (30_encoding.md R55). -/
def Line.first : Line → Option Transaction
  | .transact t => some t
  | .wait => some (rdOf .status)
  | .setAinc => some (rdOf .ctrl)
  | .loadBits _ => some (rdOf .ctrl)
  | .readBits => some (rdOf .len)
  | .loadKey _ => some (rdOf .ctrl)
  | .readKey => some (rdOf .klen)
  | .call i => some (wrOf .cmd (encode i))
  | .rst => none

/-- `WR CTRL, v or 0x2`, once the read of CTRL has returned v. -/
def ainc (v : Word) : Line := .wr .ctrl (v ||| 0x2#32)

/-- What a line still has to do once its first transaction has been answered (30_encoding.md R55). Where
the answer it needs is BusError, the line ends (log entry 7). -/
def Line.rest (l : Line) (r : Reply) : List Line :=
  match l, r with
  | .transact _, _ => []
  | .wait, .value v => if wordBit v 0 then [.wait] else []
  | .wait, _ => []
  | .setAinc, .value v => [ainc v]
  | .setAinc, _ => []
  | .loadBits bits, .value v =>
    [ainc v, .wr .bidx 0] ++ bits.map (fun b => .wr .bdata (zextBit b)) ++ [.wr .len (toReg bits.length)]
  | .loadBits _, _ => []
  | .readBits, .value n => [.setAinc, .wr .bidx 0] ++ List.replicate n.toNat (.rd .bdata)
  | .readBits, _ => []
  | .loadKey key, .value v =>
    [ainc v, .wr .kidx 0] ++ key.map (fun k => .wr .kdata k) ++ [.wr .klen (toReg key.length)]
  | .loadKey _, _ => []
  | .readKey, .value m => [.setAinc, .wr .kidx 0] ++ List.replicate m.toNat (.rd .kdata)
  | .readKey, _ => []
  | .call _, _ => [.wait, .rd .status]
  | .rst, _ => []

/-- One host transaction fewer before the running command completes (log entry 2). -/
def State.tick (s : State) : State := { s with delay := s.delay - 1 }

/-- The outside world performs the first transaction of a line, or asserts `rst`: the host records the
reply and goes on with what the line leaves to do. `s.script` is the script after the line. -/
def performLine (l : Line) (s : State) : State :=
  match l.first with
  | none => s.assertReset
  | some t =>
    let r := transact t s.tick
    { r.1 with script := l.rest r.2 ++ r.1.script, log := (t, r.2) :: r.1.log }

/-- Which agent moves: the core completes when it is busy and no further transaction comes before the
completion, because the drawn delay has run out or the script has ended (40_command_control.md R61; log entry 2). -/
def State.completesNow (s : State) : Bool := s.busy && (s.delay == 0 || s.script.isEmpty)

end Sys2Proof.Machine
end

