-- ==== Sys2Proof/Machine/Step.lean ====
section
/-! DEFINITION. One step of the machine: a completion, or one line of the outside world, or nothing to do. -/

namespace Sys2Proof.Machine

/-- One step. Transactions and completions come one at a time, each atomic (20_memory.md R41, R42); an
idle core with nothing to do keeps all state (60_exceptions.md R126; log entries 1, 2, 8). -/
def step (s : State) : Host.Outcome State Fault Refusal :=
  if s.completesNow then completeCommand s
  else
    match s.script with
    | [] => .next s
    | l :: ls => .next (performLine l { s with script := ls })

/-- The state whose very next step runs the command word `w`: the core fetches nothing, a command is
the data of an accepted write to CMD (10_state.md R19, 20_memory.md R43; log entry 12). The command
word is 32 bits, so bits of `w` above `nbits` or above 31 are none of it. -/
def State.withFetchWord (s : State) (nbits w : Nat) : State :=
  s.present (BitVec.ofNat 32 (w % 2 ^ nbits))

end Sys2Proof.Machine
end

