-- ==== Sys2Proof/Safety.lean ====
section
/-! DEFINITION. What holds in every safe run, and how a step relates two states: the terms the statements use. -/

namespace Sys2Proof.Machine

/-- The register invariants, in the order of 10_state.md R26. -/
structure RegisterInv (s : State) : Prop where
  /-- 1: LEN <= NMAX. -/
  len_le : s.len.toNat ≤ s.cfg.nmax
  /-- 1: KLEN <= NMAX. -/
  klen_le : s.klen.toNat ≤ s.cfg.nmax
  /-- 2: BUSY = 1 implies DONE = 0 and ERR = 0. -/
  busy_clear : s.busy = true → s.done = false ∧ s.err = false
  /-- 3: ERR = 0 implies ERRCODE = 0 and ERRINFO = 0. -/
  no_err : s.err = false → s.errcode = 0 ∧ s.errinfo = 0
  /-- 3: ERR = 1 implies ERRCODE in 1 .. 6. -/
  err_code : s.err = true → 1 ≤ s.errcode.toNat ∧ s.errcode.toNat ≤ 6
  /-- 4: DONE and ERR are never both 1. -/
  not_both : ¬(s.done = true ∧ s.err = true)
  /-- 5: STATUS[31:3] = 0. -/
  status_reserved : s.statusWord >>> 3 = 0
  /-- 5: CTRL[31:2] = 0. -/
  ctrl_reserved : s.ctrlWord >>> 2 = 0
  /-- 5: ERRCODE[31:8] = 0. -/
  errcode_reserved : s.errcodeWord >>> 8 = 0

/-- Both memories are in canonical form, with no cell at or above NMAX (log entry 4). -/
structure MemoryInv (s : State) : Prop where
  buf_wf : Memory.wf s.cfg.nmax s.buf = true
  key_wf : Memory.wf s.cfg.nmax s.key = true

/-- What every reachable state satisfies. -/
structure Inv (s : State) : Prop where
  legal : s.cfg.Legal
  regs : RegisterInv s
  mems : MemoryInv s

/-- Every BUF cell reads as before. -/
def SameBuf (s t : State) : Prop := ∀ k, t.bufCell k = s.bufCell k

/-- Every KEY entry reads as before. -/
def SameKey (s t : State) : Prop := ∀ k, t.keyEntry k = s.keyEntry k

/-- What no command writes: CMD, CTRL, CHUNK, EXP, BIDX, KIDX (40_command_control.md R63, 60_exceptions.md
R119), the parameters, and the model's record of the outside world. -/
structure KeepsControl (s t : State) : Prop where
  cfg : t.cfg = s.cfg
  cmd : t.cmd = s.cmd
  ie : t.ie = s.ie
  ainc : t.ainc = s.ainc
  chunk : t.chunk = s.chunk
  exp : t.exp = s.exp
  bidx : t.bidx = s.bidx
  kidx : t.kidx = s.kidx
  delay : t.delay = s.delay
  accepted : t.accepted = s.accepted
  script : t.script = s.script
  log : t.log = s.log

/-- Successful completion, apart from the updates (40_command_control.md R63). -/
structure Succeeded (s t : State) : Prop where
  busy : t.busy = false
  done : t.done = true
  err : t.err = s.err
  errcode : t.errcode = s.errcode
  errinfo : t.errinfo = s.errinfo
  control : KeepsControl s t

/-- Faulted completion with a cause code and an info value, and nothing else changed (60_exceptions.md R119). -/
structure Faulted (code : BitVec 8) (info : Word) (s t : State) : Prop where
  errcode : t.errcode = code
  errinfo : t.errinfo = info
  err : t.err = true
  busy : t.busy = false
  done : t.done = s.done
  control : KeepsControl s t
  len : t.len = s.len
  klen : t.klen = s.klen
  zpad : t.zpad = s.zpad
  opad : t.opad = s.opad
  buf : SameBuf s t
  key : SameKey s t

/-- `y` is `x` with the elements at `a` and `b` exchanged (00_scope.md section 5.1, `swap`). -/
def Exchanged (a b : Nat) (x y : List Bit) : Prop :=
  ∀ k, y[k]? = if k = a then x[b]? else if k = b then x[a]? else x[k]?

/-- One use of the cursor at transition index `i` with chunk size `c`, as 42_bit_permutation.md R81 has it:
from cursor `cur` to `cur'`, taking sequence `x` to `y`. -/
def CursorMove (c : Nat) (cur : Cursor) (i : Nat) (cur' : Cursor) (x y : List Bit) : Prop :=
  match cur with
  | none => cur' = some i ∧ y = x
  | some j =>
    if (j + 1) % c = 0 then cur' = some i ∧ y = x
    else cur' = some (j + 1) ∧ Exchanged (j + 1) (i + 1) x y

/-- How many of the `m` cells from `lo` on hold 1. -/
def onesIn (s : State) (lo m : Nat) : Nat := ((List.range m).filter fun j => s.bufCell (lo + j)).length

/-- How many cells of the live range above index `k` hold `b`. -/
def countAbove (s : State) (b : Bit) (k : Nat) : Nat :=
  ((List.range s.len.toNat).filter fun j => decide (k < j) && s.bufCell j == b).length

/-- The operands each command reads agree in two states (10_state.md section 7), and so do the parameters. -/
def ReadsAgree (i : Instr) (s s' : State) : Prop :=
  s.cfg = s'.cfg ∧
  match i with
  | .nop => True
  | .expand | .shrink => s.len = s'.len ∧ s.bufSeq = s'.bufSeq ∧ s.exp = s'.exp
  | .permute | .pad | .group => s.len = s'.len ∧ s.bufSeq = s'.bufSeq ∧ s.chunk = s'.chunk
  | .replay => s.len = s'.len ∧ s.bufSeq = s'.bufSeq ∧ s.chunk = s'.chunk ∧
      s.klen = s'.klen ∧ s.keySeq = s'.keySeq
  | .depad => s.len = s'.len ∧ s.bufSeq = s'.bufSeq ∧ s.chunk = s'.chunk ∧
      s.zpad = s'.zpad ∧ s.opad = s'.opad
  | .ungroup => s.len = s'.len ∧ s.bufSeq = s'.bufSeq ∧ s.chunk = s'.chunk ∧
      s.klen = s'.klen ∧ s.keySeq = s'.keySeq ∧ s.zpad = s'.zpad ∧ s.opad = s'.opad

end Sys2Proof.Machine
end

