-- ==== Sys2Proof/Certificates/Slice0/Obligations.lean ====
section
/-! DEFINITION. The statements for the provers. Each docstring names the rule of spec/ it formalises. -/

open Sys2Proof Sys2Proof.Machine

/-! ## Command words -/

/-- 30_encoding.md R51: the nine command words, written bit by bit, decode to the nine commands. -/
def Obligations.CommandWordsDecode : Prop :=
  decode 0b00000000000000000000000000000000#32 = .command .nop ∧
  decode 0b00000000000000000000000000000001#32 = .command .expand ∧
  decode 0b00000000000000000000000000000010#32 = .command .shrink ∧
  decode 0b00000000000000000000000000000011#32 = .command .permute ∧
  decode 0b00000000000000000000000000000100#32 = .command .replay ∧
  decode 0b00000000000000000000000000000101#32 = .command .pad ∧
  decode 0b00000000000000000000000000000110#32 = .command .depad ∧
  decode 0b00000000000000000000000000000111#32 = .command .group ∧
  decode 0b00000000000000000000000000001000#32 = .command .ungroup

/-- 30_encoding.md R51, R52: encoding and decoding agree both ways, and the words outside the image of the
encoder are exactly those with a reserved bit set or an opcode above 0x08, which are illegal. -/
def Obligations.DecodeEncodeAgree : Prop :=
  (∀ i : Instr, i.wf = true → decode (encode i) = .command i) ∧
  (∀ (w : Word) (i : Instr), decode w = .command i → w = encode i) ∧
  (∀ w : Word, (∃ why, decode w = .illegal why) ↔
    (w.extractLsb' 8 24 ≠ 0 ∨ 8 < (w.extractLsb' 0 8).toNat))

/-- 60_exceptions.md R112: an accepted word with a reserved bit set or an opcode above 0x08 completes
with ILLEGAL_CMD and the word as info, whatever the operands hold. -/
def Obligations.IllegalWordFaults : Prop :=
  ∀ s : State, (s.cmd.extractLsb' 8 24 ≠ 0 ∨ 8 < (s.cmd.extractLsb' 0 8).toNat) →
    ∃ t, completeCommand s = .next t ∧ Faulted 1 s.cmd s t

/-! ## The step -/

/-- 40_command_control.md R61, R62: when the core is busy and no further transaction comes first (log entry
2, the model's choice of when that is), a step is the completion of the word in CMD: of the command it decodes
to, or of an illegal word. Nothing is added around it: there is no program counter (R19). -/
def Obligations.StepRunsDecodedCommand : Prop :=
  ∀ s : State, s.busy = true → (s.delay = 0 ∨ s.script = []) →
    step s = completeCommand s ∧
    ∀ i : Instr, i.wf = true → decode s.cmd = .command i → step s = exec i s

/-- 20_memory.md R41: when the core does not complete, a step performs the one transaction at the head of
the script, on the state as it stands, and the host records the reply. -/
def Obligations.StepPerformsTransaction : Prop :=
  ∀ (s : State) (x : Transaction) (ls : List Line), s.completesNow = false →
    s.script = .transact x :: ls →
    ∃ (t : State) (r : Reply), transact x { s with script := ls, delay := s.delay - 1 } = (t, r) ∧
      step s = .next { t with log := (x, r) :: s.log } ∧ t.script = ls

/-- 60_exceptions.md R126: an idle core with no transaction to perform keeps all state. -/
def Obligations.IdleCoreKeepsState : Prop :=
  ∀ s : State, s.busy = false → s.script = [] → step s = .next s

/-- 93_implementation_defined.md section 1: nothing is undefined: every state has a next state. -/
def Obligations.EveryStepAnswersNext : Prop :=
  ∀ s : State, ∃ t, step s = .next t

/-! ## Invariants -/

/-- The reset state meets the whole invariant: a legal NMAX (00_scope.md R4), the register invariants
(10_state.md R26, R27), and the canonical form of both memories, which is log entry 4, the model's own choice of
form and no rule of the spec. -/
def Obligations.ResetMeetsInvariant : Prop := Inv State.reset

/-- 10_state.md R26: the five register invariants hold after reset, and every step (a host transaction, a
completion, an assertion of `rst`) keeps them, for every legal NMAX (00_scope.md R4). -/
def Obligations.RegisterInvariantsKept : Prop :=
  RegisterInv State.reset ∧
  ∀ s t : State, s.cfg.Legal → RegisterInv s → step s = .next t → t.cfg = s.cfg ∧ RegisterInv t

/-- Log entry 4, the model's own choice of form: every step keeps both memories canonical, with no cell
at or above NMAX. -/
def Obligations.MemoryFormKept : Prop :=
  ∀ s t : State, Inv s → step s = .next t → MemoryInv t

/-! ## Reset -/

/-- 10_state.md R27: the state after reset. BUF and KEY are unspecified: nothing is said of them. -/
def Obligations.ResetValues : Prop :=
  let r := State.reset
  r.len = 0 ∧ r.klen = 0 ∧ r.chunk = 0 ∧ r.exp = 0 ∧ r.zpad = 0 ∧ r.opad = 0 ∧ r.cmd = 0 ∧
  r.statusWord = 0 ∧ r.busy = false ∧ r.done = false ∧ r.err = false ∧
  r.errcodeWord = 0 ∧ r.errinfo = 0 ∧ r.ctrlWord = 0 ∧ r.ie = false ∧ r.ainc = false ∧
  r.bidx = 0 ∧ r.kidx = 0 ∧
  idWord = 0x56434201#32 ∧ r.cap0Word = 0x00010000#32 ∧ r.cap1Word = 0 ∧ r.irq = false

/-- 70_reset_and_hazards.md R130: `rst` in any state, also while a command runs, gives every register its
reset value, leaves nothing of a running command and draws both memories afresh (as free values, log entry
3); the parameters and the host's script and record stay (log entry 6). Both entries are the model's choice. -/
def Obligations.ResetAssertion : Prop :=
  ∀ (s : State) (ls : List Line), s.completesNow = false → s.script = .rst :: ls →
    ∃ t, step s = .next t ∧
      t.len = 0 ∧ t.klen = 0 ∧ t.chunk = 0 ∧ t.exp = 0 ∧ t.zpad = 0 ∧ t.opad = 0 ∧ t.cmd = 0 ∧
      t.statusWord = 0 ∧ t.errcodeWord = 0 ∧ t.errinfo = 0 ∧ t.ctrlWord = 0 ∧
      t.bidx = 0 ∧ t.kidx = 0 ∧ t.irq = false ∧ t.cfg = s.cfg ∧ t.script = ls ∧ t.log = s.log ∧
      t.bufEpoch ≠ s.bufEpoch ∧ t.keyEpoch ≠ s.keyEpoch ∧
      (∀ k, t.bufCell k = Config.freeBit t.bufEpoch k) ∧ (∀ k, t.keyEntry k = Config.freeEntry t.keyEpoch k)

/-! ## The nine commands: where each completes, with what result, and what it leaves alone -/

/-- 40_command_control.md R64: NOP, the word 0, always succeeds and changes no operand; like any command it
is refused while BUSY = 1 or ERR = 1. -/
def Obligations.NopRule : Prop :=
  ∀ s : State,
    (∃ t, exec .nop s = .next t ∧ Succeeded s t ∧ SameBuf s t ∧ SameKey s t ∧
      t.len = s.len ∧ t.klen = s.klen ∧ t.zpad = s.zpad ∧ t.opad = s.opad) ∧
    decode 0x00000000#32 = .command .nop ∧
    (s.busy = true ∨ s.err = true → hostWrite 0x1C 4 0x00000000#32 s = (s, .busError))

/-- 41_bit_expander.md R70: EXPAND, its two faults in order, and `out[q] = s[q div e]`. -/
def Obligations.ExpandRule : Prop :=
  ∀ s : State, s.cfg.Legal →
    let e := signed32 s.exp
    let n := s.len.toNat
    (e ≤ 0 → ∃ t, exec .expand s = .next t ∧ Faulted 2 s.exp s t) ∧
    (0 < e → (s.cfg.nmax : Int) < n * e → ∃ t, exec .expand s = .next t ∧
      Faulted 6 (BitVec.ofInt 32 (min (n * e) (2 ^ 32 - 1))) s t) ∧
    (0 < e → n * e ≤ (s.cfg.nmax : Int) → ∃ t, exec .expand s = .next t ∧ Succeeded s t ∧
      (t.len.toNat : Int) = n * e ∧ (∀ q, q < t.len.toNat → t.bufCell q = s.bufCell (q / e.toNat)) ∧
      SameKey s t ∧ t.klen = s.klen ∧ t.zpad = s.zpad ∧ t.opad = s.opad)

/-- 41_bit_expander.md R71, R72: SHRINK, its fault, the number of windows, and the majority of each window,
TIE_BIT where a window has as many ones as zeros, whatever the parity of e. -/
def Obligations.ShrinkRule : Prop :=
  ∀ s : State,
    let e := (signed32 s.exp).toNat
    let n := s.len.toNat
    (signed32 s.exp ≤ 0 → ∃ t, exec .shrink s = .next t ∧ Faulted 2 s.exp s t) ∧
    (0 < signed32 s.exp → ∃ t, exec .shrink s = .next t ∧ Succeeded s t ∧
      n ≤ t.len.toNat * e ∧ (∀ q, n ≤ q * e → t.len.toNat ≤ q) ∧
      (∀ q, q < t.len.toNat →
        let m := min e (n - q * e)
        let ones := onesIn s (q * e) m
        0 < m ∧ t.bufCell q =
          if ones > m - ones then true else if m - ones > ones then false else s.cfg.tieBit) ∧
      SameKey s t ∧ t.klen = s.klen ∧ t.zpad = s.zpad ∧ t.opad = s.opad)

/-- 42_bit_permutation.md R80, R82: PERMUTE, its fault, and the scan: `tr i` is what the scan holds when it
comes to index i; each index compares the sequence as it then stands. -/
def Obligations.PermuteRule : Prop :=
  ∀ s : State,
    let c := (signed32 s.chunk).toNat
    let n := s.len.toNat
    (signed32 s.chunk ≤ 0 → ∃ t, exec .permute s = .next t ∧ Faulted 3 s.chunk s t) ∧
    (0 < signed32 s.chunk → ∃ (t : State) (tr : Nat → Scan),
      exec .permute s = .next t ∧ Succeeded s t ∧
      tr 0 = { seq := s.bufSeq, key := [], steps := 0, cursor := none } ∧
      (∀ i, i + 1 < n →
        ((tr i).seq[i]? = (tr i).seq[i + 1]? → tr (i + 1) = { tr i with steps := (tr i).steps + 1 }) ∧
        ((tr i).seq[i]? ≠ (tr i).seq[i + 1]? →
          (tr (i + 1)).key = (tr i).key ++ [(tr i).steps] ∧ (tr (i + 1)).steps = 0 ∧
          CursorMove c (tr i).cursor i (tr (i + 1)).cursor (tr i).seq (tr (i + 1)).seq)) ∧
      t.bufSeq = (tr (n - 1)).seq ∧ t.keySeq = (tr (n - 1)).key ∧
      t.klen.toNat = (tr (n - 1)).key.length ∧
      t.len = s.len ∧ t.zpad = s.zpad ∧ t.opad = s.opad)

/-- 42_bit_permutation.md R84: REPLAY, its two faults in order, and the swaps rebuilt by the cursor from the
key's positions and undone last to first: `seq r` is the sequence once the swaps from the r-th transition on are undone. -/
def Obligations.ReplayRule : Prop :=
  ∀ s : State,
    let c := (signed32 s.chunk).toNat
    let n := s.len.toNat
    let p := keyPositions s.keySeq
    (signed32 s.chunk ≤ 0 → ∃ t, exec .replay s = .next t ∧ Faulted 3 s.chunk s t) ∧
    (0 < signed32 s.chunk → ∀ bad, bad < p.length → n < p.getD bad 0 + 2 →
      (∀ r, r < bad → p.getD r 0 + 2 ≤ n) →
      ∃ t, exec .replay s = .next t ∧ Faulted 5 (BitVec.ofNat 32 bad) s t) ∧
    (0 < signed32 s.chunk → (∀ r, r < p.length → p.getD r 0 + 2 ≤ n) →
      ∃ (t : State) (cur : Nat → Cursor) (seq : Nat → List Bit),
        exec .replay s = .next t ∧ Succeeded s t ∧ p.length = s.klen.toNat ∧
        cur 0 = none ∧ seq p.length = s.bufSeq ∧
        (∀ r, r < p.length → CursorMove c (cur r) (p.getD r 0) (cur (r + 1)) (seq (r + 1)) (seq r)) ∧
        t.bufSeq = seq 0 ∧ SameKey s t ∧
        t.len = s.len ∧ t.klen = s.klen ∧ t.zpad = s.zpad ∧ t.opad = s.opad)

/-- 43_run_length_padder.md R91: PAD, its two faults in order, the padded sequence cell by cell, and the two
counts. The tail is `tailRuns`, which `TailRunsRule` pins down. -/
def Obligations.PadRule : Prop :=
  ∀ s : State, s.cfg.Legal →
    let c := (signed32 s.chunk).toNat
    let n := s.len.toNat
    let T := tailRuns s.bufSeq
    let p1 := if n = 0 then 0 else (c - T.l1 % c) % c
    let p2 := if n = 0 ∨ T.d = 0 then 0 else (c - T.l2 % c) % c
    (signed32 s.chunk ≤ 0 → ∃ t, exec .pad s = .next t ∧ Faulted 3 s.chunk s t) ∧
    (0 < signed32 s.chunk → s.cfg.nmax < n + p1 + p2 → ∃ t, exec .pad s = .next t ∧
      Faulted 6 (BitVec.ofNat 32 (min (n + p1 + p2) (2 ^ 32 - 1))) s t) ∧
    (0 < signed32 s.chunk → n + p1 + p2 ≤ s.cfg.nmax → ∃ t, exec .pad s = .next t ∧ Succeeded s t ∧
      t.len.toNat = n + p1 + p2 ∧
      (∀ k, k < t.len.toNat → t.bufCell k =
        if k < T.d then s.bufCell k
        else if k < T.d + p2 then !T.first
        else if k < n + p2 then s.bufCell (k - p2)
        else T.first) ∧
      t.zpad.toNat = (if n ≠ 0 ∧ T.first = true then p2 else p1) ∧
      t.opad.toNat = (if n ≠ 0 ∧ T.first = true then p1 else p2) ∧
      SameKey s t ∧ t.klen = s.klen)

/-- 43_run_length_padder.md R92: DEPAD, its three faults in order, and what is kept: going back from the
tail, a bit is removed exactly while fewer than the count of its polarity have been met. -/
def Obligations.DepadRule : Prop :=
  ∀ s : State,
    let c := signed32 s.chunk
    (c ≤ 0 → ∃ t, exec .depad s = .next t ∧ Faulted 3 s.chunk s t) ∧
    (0 < c → c ≤ s.zpad.toNat → ∃ t, exec .depad s = .next t ∧ Faulted 4 0 s t) ∧
    (0 < c → s.zpad.toNat < c → c ≤ s.opad.toNat → ∃ t, exec .depad s = .next t ∧ Faulted 4 1 s t) ∧
    (0 < c → s.zpad.toNat < c → s.opad.toNat < c → ∃ t, exec .depad s = .next t ∧ Succeeded s t ∧
      t.bufSeq = ((List.range s.len.toNat).filter fun k =>
        if s.bufCell k then decide (s.opad.toNat ≤ countAbove s true k)
        else decide (s.zpad.toNat ≤ countAbove s false k)).map s.bufCell ∧
      SameKey s t ∧ t.klen = s.klen ∧ t.zpad = s.zpad ∧ t.opad = s.opad)

/-- 44_group_ungroup.md R100: GROUP, its two faults in order, PermuteCore then PadCore, one commit; the
result is that of PERMUTE followed by PAD with the same CHUNK, except that a CAPACITY fault leaves the
original sequence, key and counts. -/
def Obligations.GroupRule : Prop :=
  ∀ s : State, s.cfg.Legal →
    let c := (signed32 s.chunk).toNat
    let g := permuteCore s.bufSeq c
    let r := padCore g.1 c
    (signed32 s.chunk ≤ 0 → ∃ t, exec .group s = .next t ∧ Faulted 3 s.chunk s t) ∧
    (0 < signed32 s.chunk → s.cfg.nmax < r.out.length → ∃ t, exec .group s = .next t ∧
      Faulted 6 (BitVec.ofNat 32 (min r.out.length (2 ^ 32 - 1))) s t) ∧
    (0 < signed32 s.chunk → r.out.length ≤ s.cfg.nmax → ∃ t, exec .group s = .next t ∧ Succeeded s t ∧
      t.bufSeq = r.out ∧ t.len.toNat = r.out.length ∧ r.out.length = s.len.toNat + r.zp + r.op ∧
      t.keySeq = g.2 ∧ t.klen.toNat = g.2.length ∧ t.zpad.toNat = r.zp ∧ t.opad.toNat = r.op) ∧
    (0 < signed32 s.chunk →
      ∃ t1 t2 t, exec .permute s = .next t1 ∧ exec .pad t1 = .next t2 ∧ exec .group s = .next t ∧
        ((Succeeded t1 t2 ∧ Succeeded s t ∧ t.bufSeq = t2.bufSeq ∧ t.len = t2.len ∧ t.keySeq = t2.keySeq ∧
            t.klen = t2.klen ∧ t.zpad = t2.zpad ∧ t.opad = t2.opad) ∨
         (∃ info, Faulted 6 info t1 t2 ∧ Faulted 6 info s t)))

/-- 44_group_ungroup.md R101: UNGROUP, its four faults in order, DepadCore then ReplayCore, one commit; the
key is checked against the depadded length; the result is that of DEPAD followed by REPLAY with the same
CHUNK, except that a KEY_MALFORMED fault leaves the padded sequence. -/
def Obligations.UngroupRule : Prop :=
  ∀ s : State,
    let c := signed32 s.chunk
    let s1 := depadCore s.bufSeq s.zpad.toNat s.opad.toNat
    let p := keyPositions s.keySeq
    (c ≤ 0 → ∃ t, exec .ungroup s = .next t ∧ Faulted 3 s.chunk s t) ∧
    (0 < c → c ≤ s.zpad.toNat → ∃ t, exec .ungroup s = .next t ∧ Faulted 4 0 s t) ∧
    (0 < c → s.zpad.toNat < c → c ≤ s.opad.toNat → ∃ t, exec .ungroup s = .next t ∧ Faulted 4 1 s t) ∧
    (0 < c → s.zpad.toNat < c → s.opad.toNat < c →
      ∀ bad, bad < p.length → s1.length < p.getD bad 0 + 2 → (∀ r, r < bad → p.getD r 0 + 2 ≤ s1.length) →
      ∃ t, exec .ungroup s = .next t ∧ Faulted 5 (BitVec.ofNat 32 bad) s t) ∧
    (0 < c → s.zpad.toNat < c → s.opad.toNat < c → (∀ r, r < p.length → p.getD r 0 + 2 ≤ s1.length) →
      ∃ t, exec .ungroup s = .next t ∧ Succeeded s t ∧
        t.bufSeq = replayCore s1 s.keySeq c.toNat ∧ t.len.toNat = s1.length ∧
        SameKey s t ∧ t.klen = s.klen ∧ t.zpad = s.zpad ∧ t.opad = s.opad) ∧
    (0 < c → s.zpad.toNat < c → s.opad.toNat < c →
      ∃ t1 t2 t, exec .depad s = .next t1 ∧ exec .replay t1 = .next t2 ∧ exec .ungroup s = .next t ∧
        ((Succeeded t1 t2 ∧ Succeeded s t ∧ t.bufSeq = t2.bufSeq ∧ t.len = t2.len) ∨
         (∃ info, Faulted 5 info t1 t2 ∧ Faulted 5 info s t)))

/-! ## The functions the commands are made of -/

/-- 42_bit_permutation.md R81: the cursor step; and over strictly rising transition indexes every swap has
`j + 1 <= i`, so its two positions are distinct and the higher is `i + 1`. -/
def Obligations.CursorStepRule : Prop :=
  (∀ c i : Nat, cursorStep c none i = (some i, none)) ∧
  (∀ c j i : Nat, (j + 1) % c = 0 → cursorStep c (some j) i = (some i, none)) ∧
  (∀ c j i : Nat, (j + 1) % c ≠ 0 → cursorStep c (some j) i = (some (j + 1), some (j + 1, i + 1))) ∧
  (∀ (c : Nat) (ps : List Nat), ps.Pairwise (· < ·) →
    ∀ ab ∈ swapsFrom c none ps, ∃ i ∈ ps, ab.2 = i + 1 ∧ ab.1 ≤ i)

/-- 42_bit_permutation.md R83: the positions of a key in unbounded integers, that they rise strictly, the
three forms of well-formedness, `bad`, the bound of the sums; and p[t] is the index of the t-th transition of
the scan that produced the key. -/
def Obligations.KeyPositionsRule : Prop :=
  ∀ (key : List Nat) (n : Nat),
    let p := keyPositions key
    p.length = key.length ∧
    (key ≠ [] → p[0]? = key[0]?) ∧
    (∀ r, r + 1 < key.length → p.getD (r + 1) 0 = p.getD r 0 + 1 + key.getD (r + 1) 0) ∧
    p.Pairwise (· < ·) ∧
    (keyWellFormed key n = true ↔ key = [] ∨ p.getD (key.length - 1) 0 + 2 ≤ n) ∧
    (keyWellFormed key n = true ↔ ∀ r, r < key.length → p.getD r 0 + 1 < n) ∧
    (keyWellFormed key n = true ↔ key = [] ∨ key.sum + key.length + 1 ≤ n) ∧
    (keyWellFormed key n = false → badEntry key n < key.length ∧
      n < p.getD (badEntry key n) 0 + 2 ∧ ∀ r, r < badEntry key n → p.getD r 0 + 2 ≤ n) ∧
    (n ≤ 1 → badEntry key n = 0) ∧
    (key.length ≤ 2 ^ 24 → (∀ k ∈ key, k < 2 ^ 32) → ∀ q ∈ p, q < 2 ^ 57) ∧
    (∀ (s : List Bit) (c : Nat), key = (permuteCore s c).2 → p = liveTransitions s c)

/-- 43_run_length_padder.md R90: the last two runs, each bounded on both sides. -/
def Obligations.TailRunsRule : Prop :=
  ∀ s : List Bit, s ≠ [] →
    let T := tailRuns s
    let n := s.length
    s[n - 1]? = some T.first ∧ T.d < n ∧
    (∀ k, T.d ≤ k → k < n → s[k]? = some T.first) ∧
    (0 < T.d → s[T.d - 1]? = some (!T.first)) ∧
    T.l1 = n - T.d ∧ 1 ≤ T.l1 ∧
    (T.d = 0 → T.l2 = 0) ∧
    (0 < T.d → 1 ≤ T.l2 ∧ T.l2 ≤ T.d ∧
      (∀ k, T.d - T.l2 ≤ k → k < T.d → s[k]? = some (!T.first)) ∧
      (T.l2 < T.d → s[T.d - T.l2 - 1]? = some T.first))

/-! ## Inverses and properties of the data path -/

/-- 41_bit_expander.md R73: EXPAND then SHRINK with the same EXP returns the sequence, whatever TIE_BIT is;
with EXP = 1 each leaves it; the new lengths. -/
def Obligations.ExpandThenShrink : Prop :=
  ∀ s : State, s.cfg.Legal → 0 < signed32 s.exp →
    (s.len.toNat * (signed32 s.exp).toNat ≤ s.cfg.nmax →
      ∃ t u, exec .expand s = .next t ∧ exec .shrink t = .next u ∧
        t.len.toNat = s.len.toNat * (signed32 s.exp).toNat ∧
        u.bufSeq = s.bufSeq ∧ u.len = s.len) ∧
    (∃ t, exec .shrink s = .next t ∧
      t.len.toNat = (s.len.toNat + (signed32 s.exp).toNat - 1) / (signed32 s.exp).toNat) ∧
    (s.exp = 1 → s.len.toNat ≤ s.cfg.nmax →
      ∃ t u, exec .expand s = .next t ∧ t.bufSeq = s.bufSeq ∧ t.len = s.len ∧
        exec .shrink s = .next u ∧ u.bufSeq = s.bufSeq ∧ u.len = s.len)

/-- 41_bit_expander.md section 3: with an odd factor e, an expanded sequence with fewer than (e+1)/2 bits
of each window inverted still shrinks to the original. -/
def Obligations.CorruptedExpansionShrinksBack : Prop :=
  ∀ (s : State) (b : List Bit), let e := (signed32 s.exp).toNat
    0 < signed32 s.exp → e % 2 = 1 → s.len.toNat = b.length * e →
    (∀ q, q < b.length →
      ((List.range e).filter fun j => s.bufCell (q * e + j) != b.getD q false).length < (e + 1) / 2) →
    ∃ t, exec .shrink s = .next t ∧ t.bufSeq = b

/-- 42_bit_permutation.md R85 (a): PERMUTE then REPLAY with the same CHUNK, and the KEY and KLEN that PERMUTE
wrote, succeeds and returns the sequence. -/
def Obligations.PermuteThenReplay : Prop :=
  ∀ s : State, 0 < signed32 s.chunk →
    ∃ t u, exec .permute s = .next t ∧ exec .replay t = .next u ∧ Succeeded s t ∧ Succeeded t u ∧
      u.bufSeq = s.bufSeq ∧ u.len = s.len ∧ SameKey t u ∧ u.klen = t.klen

/-- 42_bit_permutation.md R85 (b), (c): bounds of the key PERMUTE writes, that it is well-formed for the
sequence, and that the result is a permutation of the sequence with the same number of ones. -/
def Obligations.PermuteBoundsAndPermutes : Prop :=
  ∀ s : State, 0 < signed32 s.chunk →
    ∃ t, exec .permute s = .next t ∧ t.klen.toNat = t.keySeq.length ∧
      t.klen.toNat ≤ s.len.toNat - 1 ∧ t.keySeq.sum + t.klen.toNat ≤ s.len.toNat - 1 ∧
      keyWellFormed t.keySeq s.len.toNat = true ∧ (∀ k ∈ t.keySeq, k + 2 ≤ s.len.toNat) ∧
      t.len = s.len ∧ t.bufSeq.length = s.bufSeq.length ∧ t.bufSeq.Perm s.bufSeq ∧
      t.bufSeq.count true = s.bufSeq.count true

/-- 42_bit_permutation.md R85 (d), (e): with CHUNK = 1, or a uniform sequence, or at most one bit, PERMUTE
leaves the sequence; with CHUNK = 1 the key is the run lengths less one, all but the last run. For every
sequence the recorded transitions are those of the scan on the live sequence; they can be fewer or more than
the transitions of the sequence itself, as two examples show. -/
def Obligations.PermuteFixedCases : Prop :=
  (∀ s : State, 0 < signed32 s.chunk →
    (s.chunk = 1 ∨ s.len.toNat ≤ 1 ∨ (∃ b, s.bufSeq = List.replicate s.len.toNat b)) →
    ∃ t, exec .permute s = .next t ∧ t.bufSeq = s.bufSeq) ∧
  (∀ (s : State) (b : Bit) (ls : List Nat) (l : Nat), s.chunk = 1 → (∀ x ∈ ls, 1 ≤ x) → 1 ≤ l →
    s.bufSeq = ((ls ++ [l]).zipIdx.map fun x => List.replicate x.1 (b ^^ decide (x.2 % 2 = 1))).flatten →
    ∃ t, exec .permute s = .next t ∧ t.keySeq = ls.map (· - 1) ∧ t.klen.toNat = ls.length) ∧
  (∀ s : State, 0 < signed32 s.chunk →
    ∃ t, exec .permute s = .next t ∧
      keyPositions t.keySeq = liveTransitions s.bufSeq (signed32 s.chunk).toNat ∧
      t.klen.toNat = (liveTransitions s.bufSeq (signed32 s.chunk).toNat).length) ∧
  (transitions [true, true, false, false, true, false]).length = 3 ∧
  (transitions [false, true, false, false]).length = 2 ∧
  permuteCore [true, true, false, false, true, false] 3 =
    ([true, true, true, false, false, false], [1, 1]) ∧
  permuteCore [false, true, false, false] 2 = ([false, false, true, false], [0, 0, 0])

/-- 43_run_length_padder.md R93: (a) DEPAD undoes PAD; (b) to (e) the padded length, the range of the counts,
the tail runs of the result, what is unchanged before the diff index, the numbers of zeros and ones, and a
second PAD. -/
def Obligations.PadProperties : Prop :=
  ∀ s : State, s.cfg.Legal → 0 < signed32 s.chunk →
    let c := (signed32 s.chunk).toNat
    s.len.toNat + 2 * (c - 1) ≤ s.cfg.nmax →
    ∃ t u v, exec .pad s = .next t ∧ exec .pad t = .next u ∧ exec .depad t = .next v ∧
      Succeeded s t ∧ Succeeded t u ∧ Succeeded t v ∧ v.bufSeq = s.bufSeq ∧ v.len = s.len ∧
      t.len.toNat = s.len.toNat + t.zpad.toNat + t.opad.toNat ∧
      t.zpad.toNat + t.opad.toNat ≤ 2 * (c - 1) ∧ t.zpad.toNat < c ∧ t.opad.toNat < c ∧
      (t.bufSeq ≠ [] → (tailRuns t.bufSeq).l1 % c = 0 ∧ (tailRuns t.bufSeq).l2 % c = 0) ∧
      (s.bufSeq ≠ [] → t.bufSeq.take (tailRuns s.bufSeq).d = s.bufSeq.take (tailRuns s.bufSeq).d) ∧
      t.bufSeq.count false = s.bufSeq.count false + t.zpad.toNat ∧
      t.bufSeq.count true = s.bufSeq.count true + t.opad.toNat ∧
      u.bufSeq = t.bufSeq ∧ u.len = t.len ∧ u.zpad = 0 ∧ u.opad = 0

/-- 44_group_ungroup.md R102, first part: GROUP then UNGROUP with nothing changed in between returns the
sequence; the ranges of what GROUP leaves. -/
def Obligations.GroupThenUngroup : Prop :=
  ∀ s : State, s.cfg.Legal → 0 < signed32 s.chunk →
    let c := (signed32 s.chunk).toNat
    s.len.toNat + 2 * (c - 1) ≤ s.cfg.nmax →
    ∃ t u, exec .group s = .next t ∧ exec .ungroup t = .next u ∧ Succeeded s t ∧ Succeeded t u ∧
      u.bufSeq = s.bufSeq ∧ u.len = s.len ∧
      t.zpad.toNat < c ∧ t.opad.toNat < c ∧ t.len.toNat = s.len.toNat + t.zpad.toNat + t.opad.toNat ∧
      (t.bufSeq ≠ [] → (tailRuns t.bufSeq).l1 % c = 0 ∧ (tailRuns t.bufSeq).l2 % c = 0) ∧
      t.klen.toNat ≤ s.len.toNat - 1

/-- 44_group_ungroup.md R102, second part: the encode flow EXPAND, GROUP and then the decode flow UNGROUP,
SHRINK on its outputs, with CHUNK and EXP unchanged, return the sequence. -/
def Obligations.EncodeThenDecodeFlow : Prop :=
  ∀ s : State, s.cfg.Legal → 0 < signed32 s.chunk → 0 < signed32 s.exp →
    s.len.toNat * (signed32 s.exp).toNat + 2 * ((signed32 s.chunk).toNat - 1) ≤ s.cfg.nmax →
    ∃ t1 t2 t3 t4, exec .expand s = .next t1 ∧ exec .group t1 = .next t2 ∧
      exec .ungroup t2 = .next t3 ∧ exec .shrink t3 = .next t4 ∧
      Succeeded s t1 ∧ Succeeded t1 t2 ∧ Succeeded t2 t3 ∧ Succeeded t3 t4 ∧
      t4.bufSeq = s.bufSeq ∧ t4.len = s.len

/-! ## Whole-machine rules about commands -/

/-- 00_scope.md R8, 10_state.md section 7: a command's outcome (its fault, or its updates) is a function of
the operands it reads; nothing else of the state has any influence. -/
def Obligations.CommandsReadOnlyTheirOperands : Prop :=
  ∀ (i : Instr) (s s' : State), ReadsAgree i s s' →
    ∃ r : Result, exec i s = .next (s.complete r) ∧ exec i s' = .next (s'.complete r)

/-- 40_command_control.md R62, 10_state.md section 7: every command answers, succeeding or faulting with
one of the six causes and not both, and writes no operand outside its write set. -/
def Obligations.CommandsWriteOnlyTheirResults : Prop :=
  ∀ (i : Instr) (s : State), ∃ t, exec i s = .next t ∧ KeepsControl s t ∧ t.busy = false ∧
    (Succeeded s t ∨ ∃ code info, 1 ≤ code.toNat ∧ code.toNat ≤ 6 ∧ Faulted code info s t) ∧
    (s.done = false → s.err = false → (t.done = true ↔ t.err = false)) ∧
    (i ≠ .permute → i ≠ .group → t.klen = s.klen ∧ SameKey s t) ∧
    (i ≠ .pad → i ≠ .group → t.zpad = s.zpad ∧ t.opad = s.opad) ∧
    (i = .nop ∨ i = .permute ∨ i = .replay → t.len = s.len) ∧
    (i = .nop → SameBuf s t)

/-- 20_memory.md R40 (c): after a successful command that writes BUF, every cell above the new LEN holds
the next free value, and likewise KEY above the new KLEN after PERMUTE and GROUP. That free values stand for
"unspecified" is the model's form (log entry 3). -/
def Obligations.CellsAboveResultUnspecified : Prop :=
  ∀ (i : Instr) (s t : State), s.cfg.Legal → s.len.toNat ≤ s.cfg.nmax → s.err = false →
    exec i s = .next t → t.err = false →
    (i ≠ .nop → t.bufEpoch = s.bufEpoch + 1 ∧
      ∀ k, t.len.toNat ≤ k → t.bufCell k = Config.freeBit (s.bufEpoch + 1) k) ∧
    (i = .permute ∨ i = .group → t.keyEpoch = s.keyEpoch + 1 ∧
      ∀ k, t.klen.toNat ≤ k → t.keyEntry k = Config.freeEntry (s.keyEpoch + 1) k)

/-! ## Host access -/

/-- 20_memory.md R32: a misaligned, narrow, wide or unmapped access returns BusError and has no effect. -/
def Obligations.MalformedAccessRefused : Prop :=
  ∀ (off : Offset) (size : Nat) (v : Word) (s : State),
    (off.toNat % 4 ≠ 0 ∨ size ≠ 4 ∨ 0x48 ≤ off.toNat) →
    hostRead off size s = (s, .busError) ∧ hostWrite off size v s = (s, .busError)

/-- 60_exceptions.md R122, 20_memory.md R30: a transaction that returns BusError changes no state at all. -/
def Obligations.BusErrorChangesNothing : Prop :=
  ∀ (x : Transaction) (s t : State), transact x s = (t, .busError) → t = s

/-- 20_memory.md R42, 40_command_control.md R60: while a command runs no transaction can change an operand, an
index, CMD or BUSY, so the command sees the state of its acceptance. -/
def Obligations.RunningCommandUndisturbed : Prop :=
  ∀ (x : Transaction) (s t : State) (r : Reply), s.busy = true → transact x s = (t, r) →
    SameBuf s t ∧ SameKey s t ∧ t.len = s.len ∧ t.klen = s.klen ∧ t.chunk = s.chunk ∧ t.exp = s.exp ∧
    t.zpad = s.zpad ∧ t.opad = s.opad ∧ t.bidx = s.bidx ∧ t.kidx = s.kidx ∧ t.cmd = s.cmd ∧ t.busy = true

/-- 20_memory.md R33: the BUSY lock. -/
def Obligations.BusyLock : Prop :=
  ∀ (s : State) (off : Offset) (v : Word), s.busy = true → off.toNat % 4 = 0 →
    (0x20 ≤ off.toNat → off.toNat ≤ 0x44 →
      hostRead off 4 s = (s, .busError) ∧ hostWrite off 4 v s = (s, .busError)) ∧
    hostWrite 0x1C 4 v s = (s, .busError) ∧
    (off.toNat ≤ 0x1C →
      hostRead off 4 s = (s, (hostRead off 4 s).2) ∧
      (off ≠ 0x10 → (hostRead off 4 s).2 = (hostRead off 4 { s with busy := false }).2) ∧
      hostRead 0x10 4 s = (s, .value s.statusWord) ∧
      (off ≠ 0x1C → hostWrite off 4 v s =
        ({ (hostWrite off 4 v { s with busy := false }).1 with busy := true },
          (hostWrite off 4 v { s with busy := false }).2)))

/-- 20_memory.md R34 (with the increment of R36): the data port to BUF, which does not look at LEN. -/
def Obligations.BitPort : Prop :=
  ∀ (s : State) (v : Word), s.busy = false →
    (s.cfg.nmax ≤ s.bidx.toNat →
      hostRead 0x3C 4 s = (s, .busError) ∧ hostWrite 0x3C 4 v s = (s, .busError)) ∧
    (s.bidx.toNat < s.cfg.nmax →
      hostRead 0x3C 4 s = ({ s with bidx := if s.ainc then s.bidx + 1 else s.bidx },
        .value (if s.bufCell s.bidx.toNat then 1 else 0)) ∧
      ∃ t, hostWrite 0x3C 4 v s = (t, .ok) ∧ t.bufCell s.bidx.toNat = v.getLsbD 0 ∧
        (∀ k, k ≠ s.bidx.toNat → t.bufCell k = s.bufCell k) ∧
        t = { s with buf := t.buf, bidx := if s.ainc then s.bidx + 1 else s.bidx })

/-- 20_memory.md R35 (with the increment of R36): the data port to KEY, which does not look at KLEN. -/
def Obligations.EntryPort : Prop :=
  ∀ (s : State) (v : Word), s.busy = false →
    (s.cfg.nmax ≤ s.kidx.toNat →
      hostRead 0x44 4 s = (s, .busError) ∧ hostWrite 0x44 4 v s = (s, .busError)) ∧
    (s.kidx.toNat < s.cfg.nmax →
      hostRead 0x44 4 s = ({ s with kidx := if s.ainc then s.kidx + 1 else s.kidx },
        .value (s.keyEntry s.kidx.toNat)) ∧
      ∃ t, hostWrite 0x44 4 v s = (t, .ok) ∧ t.keyEntry s.kidx.toNat = v ∧
        (∀ k, k ≠ s.kidx.toNat → t.keyEntry k = s.keyEntry k) ∧
        t = { s with key := t.key, kidx := if s.ainc then s.kidx + 1 else s.kidx })

/-- 20_memory.md R37: LEN and KLEN are range-checked, and neither write changes a cell or an entry. -/
def Obligations.LengthWritesRangeChecked : Prop :=
  ∀ (s : State) (v : Word), s.busy = false →
    (s.cfg.nmax < v.toNat →
      hostWrite 0x30 4 v s = (s, .busError) ∧ hostWrite 0x34 4 v s = (s, .busError)) ∧
    (v.toNat ≤ s.cfg.nmax →
      hostWrite 0x30 4 v s = ({ s with len := v }, .ok) ∧
      hostWrite 0x34 4 v s = ({ s with klen := v }, .ok) ∧
      SameBuf s (hostWrite 0x30 4 v s).1 ∧ SameKey s (hostWrite 0x34 4 v s).1)

/-- 20_memory.md R38: reads change nothing, writes to read-only registers return Ok and change nothing,
CTRL keeps two bits, the parameter and index registers take all 32 bits, reserved bits read as zero. -/
def Obligations.RegisterAccessKinds : Prop :=
  ∀ (s : State) (v : Word),
    (∀ off ∈ [(0x00 : Offset), 0x04, 0x08, 0x14, 0x18], hostWrite off 4 v s = (s, .ok)) ∧
    hostWrite 0x0C 4 v s = ({ s with ie := v.getLsbD 0, ainc := v.getLsbD 1 }, .ok) ∧
    (hostWrite 0x10 4 v s).2 = .ok ∧
    (hostWrite 0x10 4 v s).1 = { s with
      done := s.done && !v.getLsbD 1
      err := s.err && !v.getLsbD 2
      errcode := if v.getLsbD 2 then 0 else s.errcode
      errinfo := if v.getLsbD 2 then 0 else s.errinfo } ∧
    (s.busy = false →
      hostWrite 0x20 4 v s = ({ s with chunk := v }, .ok) ∧ hostWrite 0x24 4 v s = ({ s with exp := v }, .ok) ∧
      hostWrite 0x28 4 v s = ({ s with zpad := v }, .ok) ∧ hostWrite 0x2C 4 v s = ({ s with opad := v }, .ok) ∧
      hostWrite 0x38 4 v s = ({ s with bidx := v }, .ok) ∧ hostWrite 0x40 4 v s = ({ s with kidx := v }, .ok) ∧
      hostRead 0x20 4 s = (s, .value s.chunk) ∧ hostRead 0x24 4 s = (s, .value s.exp) ∧
      hostRead 0x28 4 s = (s, .value s.zpad) ∧ hostRead 0x2C 4 s = (s, .value s.opad) ∧
      hostRead 0x30 4 s = (s, .value s.len) ∧ hostRead 0x34 4 s = (s, .value s.klen) ∧
      hostRead 0x38 4 s = (s, .value s.bidx) ∧ hostRead 0x40 4 s = (s, .value s.kidx)) ∧
    hostRead 0x00 4 s = (s, .value 0x56434201#32) ∧
    hostRead 0x04 4 s = (s, .value (BitVec.ofNat 32 s.cfg.nmax)) ∧
    hostRead 0x08 4 s = (s, .value (if s.cfg.tieBit then 1 else 0)) ∧
    hostRead 0x14 4 s = (s, .value (s.errcode.setWidth 32)) ∧ hostRead 0x18 4 s = (s, .value s.errinfo) ∧
    hostRead 0x1C 4 s = (s, .value s.cmd) ∧
    (∃ w : Word, hostRead 0x0C 4 s = (s, .value w) ∧ w.getLsbD 0 = s.ie ∧ w.getLsbD 1 = s.ainc ∧
      ∀ k, 2 ≤ k → w.getLsbD k = false) ∧
    (∃ w : Word, hostRead 0x10 4 s = (s, .value w) ∧ w.getLsbD 0 = s.busy ∧ w.getLsbD 1 = s.done ∧
      w.getLsbD 2 = s.err ∧ ∀ k, 3 ≤ k → w.getLsbD k = false)

/-- 40_command_control.md R60: acceptance of a command word, whatever the word is. Of the model's own fields
`delay` and `accepted` (log entry 2) nothing is said. -/
def Obligations.CommandAcceptance : Prop :=
  ∀ (s : State) (w : Word),
    (s.busy = true ∨ s.err = true → hostWrite 0x1C 4 w s = (s, .busError)) ∧
    (s.busy = false → s.err = false → ∃ t : State, hostWrite 0x1C 4 w s = (t, .ok) ∧
      t = { s with cmd := w, busy := true, done := false, delay := t.delay, accepted := t.accepted })

/-- 60_exceptions.md R120: writing 1 to STATUS bit 2 acknowledges the fault in every state; DONE is cleared
independently by bit 1; after the acknowledgement an idle core accepts commands again; and no step clears ERR
in another way, but for reset. -/
def Obligations.FaultAcknowledgement : Prop :=
  (∀ (s : State) (v : Word), v.getLsbD 2 = true →
    ∃ t, hostWrite 0x10 4 v s = (t, .ok) ∧
      t = { s with err := false, errcode := 0, errinfo := 0, done := s.done && !v.getLsbD 1 } ∧
      (s.busy = false → ∀ w : Word, (hostWrite 0x1C 4 w t).2 = .ok)) ∧
  (∀ s t : State, step s = .next t → s.err = true → t.err = false →
    ∃ l ls, s.script = l :: ls ∧
      (l = .rst ∨ ∃ v : Word, l.first = some (.write 0x10 4 v) ∧ v.getLsbD 2 = true))

/-- 60_exceptions.md R124: the level, and when it moves: with IE set every completion raises `irq`, an accepted command lowers it, with
DONE and ERR cleared, or IE cleared, it is low, and reset lowers it. -/
def Obligations.InterruptLevel : Prop :=
  (∀ s : State, s.ie = true → ∃ t, completeCommand s = .next t ∧ t.irq = true) ∧
  (∀ s : State, s.irq = (s.ie && (s.done || s.err))) ∧ (∀ s : State, s.assertReset.irq = false) ∧
  (∀ (s t : State) (w : Word), hostWrite 0x1C 4 w s = (t, .ok) → t.irq = false) ∧
  (∀ (s : State) (v : Word), v.getLsbD 1 = true → v.getLsbD 2 = true → (hostWrite 0x10 4 v s).1.irq = false) ∧
  (∀ (s : State) (v : Word), (hostWrite 0x0C 4 v s).1.irq = (v.getLsbD 0 && (s.done || s.err)))

/-! ## Liveness and script lines -/

/-- 40_command_control.md R61, 70_reset_and_hazards.md R138: an accepted command completes (or is ended by
`rst`) after finitely many steps; the bound is the drawn number of transactions, which is free (log entry 2). -/
def Obligations.AcceptedCommandCompletes : Prop :=
  ∀ s : State, s.busy = true →
    ∃ k, k ≤ s.delay + 1 ∧ ∃ t : State, Sys2Proof.core.run k s = .next t ∧ t.busy = false

/-- 30_encoding.md R55: WAIT ends, with the core idle and the rest of the script still to do. -/
def Obligations.WaitTerminates : Prop :=
  ∀ (s : State) (ls : List Line), s.script = .wait :: ls →
    ∃ k, k ≤ s.delay + 2 ∧ ∃ t : State, Sys2Proof.core.run k s = .next t ∧
      t.busy = false ∧ t.script = ls

/-- 30_encoding.md R55: LOADBITS on an idle core loads the sequence, leaves BIDX = n and AINC = 1, and
changes no other register. -/
def Obligations.LoadBitsLoads : Prop :=
  ∀ (s : State) (bits : List Bit) (ls : List Line), s.cfg.Legal → s.busy = false →
    bits.length ≤ s.cfg.nmax → s.script = .loadBits bits :: ls →
    ∃ t : State, Sys2Proof.core.run (bits.length + 4) s = .next t ∧
      t.bufSeq = bits ∧ t.len.toNat = bits.length ∧ t.bidx.toNat = bits.length ∧ t.ainc = true ∧
      (∀ k, bits.length ≤ k → t.bufCell k = s.bufCell k) ∧
      t = { s with
        buf := t.buf, len := t.len, bidx := t.bidx, ainc := true, delay := t.delay, script := ls, log := t.log }

/-- 30_encoding.md R55: READBITS on an idle core reads the sequence out, in order, and changes no cell. -/
def Obligations.ReadBitsReads : Prop :=
  ∀ (s : State) (ls : List Line), s.cfg.Legal → s.busy = false → s.len.toNat ≤ s.cfg.nmax →
    s.script = .readBits :: ls →
    ∃ t : State, Sys2Proof.core.run (s.len.toNat + 4) s = .next t ∧
      (t.log.take s.len.toNat).reverse =
        s.bufSeq.map (fun b => (Transaction.read 0x3C 4, Reply.value (if b then 1 else 0))) ∧
      t = { s with bidx := t.bidx, ainc := true, delay := t.delay, script := ls, log := t.log }
end

