-- ==== Sys2Proof/Laws/BitExpander.lean ====
section
/-! SUPPORT. The bit_expander's functions on sequences: lengths, items, windows, and shrinking an expansion (41_bit_expander.md). -/

namespace Sys2Proof.Machine

@[simp] theorem expandSeq_nil (e : Nat) : expandSeq [] e = [] := rfl

theorem expandSeq_cons (b : Bit) (s : List Bit) (e : Nat) :
    expandSeq (b :: s) e = List.replicate e b ++ expandSeq s e := rfl

@[simp] theorem expandSeq_length (s : List Bit) (e : Nat) : (expandSeq s e).length = s.length * e := by
  induction s with
  | nil => simp
  | cons b s ih => rw [expandSeq_cons]; simp [ih]; ring

/-- `out[q] = s[q div e]` (R70). -/
theorem expandSeq_getElem? (s : List Bit) {e : Nat} (he : 0 < e) (q : Nat) :
    (expandSeq s e)[q]? = s[q / e]? := by
  induction s generalizing q with
  | nil => simp
  | cons b s ih =>
    rw [expandSeq_cons]
    by_cases h : q < e
    · rw [List.getElem?_append_left (by simpa using h), Nat.div_eq_of_lt h]
      simp [h]
    · have hq : q / e = (q - e) / e + 1 := Nat.div_eq_sub_div he (by omega)
      rw [List.getElem?_append_right (by simpa using h), List.length_replicate, ih, hq]
      simp

/-- EXP = 1 is the identity of EXPAND (R73). -/
@[simp] theorem expandSeq_one (s : List Bit) : expandSeq s 1 = s := by
  induction s with
  | nil => rfl
  | cons b s ih => rw [expandSeq_cons, ih]; rfl

/-! ## Windows -/

theorem le_ceilDiv_mul (n : Nat) {e : Nat} (he : 0 < e) : n ≤ ceilDiv n e * e := by
  have h1 := Nat.div_add_mod (n + e - 1) e
  have h2 := Nat.mod_lt (n + e - 1) he
  rw [Nat.mul_comm] at h1
  show n ≤ (n + e - 1) / e * e
  omega

theorem ceilDiv_le {n e q : Nat} (he : 0 < e) (h : n ≤ q * e) : ceilDiv n e ≤ q := by
  have : (n + e - 1) / e < q + 1 := (Nat.div_lt_iff_lt_mul he).2 (by rw [Nat.add_mul]; omega)
  exact Nat.lt_succ_iff.1 this

theorem lt_of_lt_ceilDiv {n e q : Nat} (he : 0 < e) (h : q < ceilDiv n e) : q * e < n := by
  by_contra hc
  exact absurd (ceilDiv_le he (Nat.le_of_not_lt hc)) (by omega)

theorem ceilDiv_le_self (n : Nat) {e : Nat} (he : 0 < e) : ceilDiv n e ≤ n :=
  ceilDiv_le he (Nat.le_mul_of_pos_right n he)

@[simp] theorem ceilDiv_mul (n : Nat) {e : Nat} (he : 0 < e) : ceilDiv (n * e) e = n := by
  apply Nat.le_antisymm (ceilDiv_le he (Nat.le_refl _))
  exact Nat.le_of_mul_le_mul_right (le_ceilDiv_mul (n * e) he) he

@[simp] theorem ceilDiv_one (n : Nat) : ceilDiv n 1 = n := by simp [ceilDiv]

@[simp] theorem window_length (s : List Bit) (e q : Nat) :
    (window s e q).length = min e (s.length - q * e) := by simp [window]

@[simp] theorem shrinkSeq_length (tie : Bit) (s : List Bit) (e : Nat) :
    (shrinkSeq tie s e).length = ceilDiv s.length e := by simp [shrinkSeq]

theorem shrinkSeq_getElem? (tie : Bit) (s : List Bit) (e q : Nat) (h : q < ceilDiv s.length e) :
    (shrinkSeq tie s e)[q]? = some (windowBit tie (window s e q)) := by
  simp [shrinkSeq, h]

/-- A window of one repeated bit has that bit as its strict majority. -/
theorem windowBit_replicate (tie : Bit) {e : Nat} (he : 0 < e) (b : Bit) :
    windowBit tie (List.replicate e b) = b := by
  cases b <;> simp [windowBit, majority, List.count_replicate, he]

/-- A strict majority of `b` decides a window. -/
theorem windowBit_of_majority (tie : Bit) (win : List Bit) (b : Bit)
    (h : win.length < 2 * win.count b) : windowBit tie win = b := by
  have hc : win.count true + win.count false = win.length := by
    induction win with
    | nil => rfl
    | cons a l ih => cases a <;> simp [List.count_cons] at * <;> grind [List.count_le_length]
  cases b <;> simp only [windowBit, majority]
  · rw [if_neg (by omega), if_pos (by omega)]
  · rw [if_pos (by omega)]

theorem window_expandSeq (s : List Bit) (e q : Nat) (h : q < s.length) :
    window (expandSeq s e) e q = List.replicate e s[q] := by
  induction s generalizing q with
  | nil => simp at h
  | cons b s ih =>
    rw [expandSeq_cons]
    cases q with
    | zero => simp [window]
    | succ q =>
      have : window (List.replicate e b ++ expandSeq s e) e (q + 1) = window (expandSeq s e) e q := by
        simp [window, Nat.add_mul, List.drop_append, Nat.add_comm]
      rw [this]
      simpa using ih q (by simpa using h)

/-- Shrinking an expansion gives the sequence back, whatever TIE_BIT is (R73). -/
theorem shrinkSeq_expandSeq (tie : Bit) (s : List Bit) {e : Nat} (he : 0 < e) :
    shrinkSeq tie (expandSeq s e) e = s := by
  apply List.ext_getElem (by simp [he])
  intro q h1 h2
  simp [shrinkSeq, window_expandSeq s e q h2, windowBit_replicate tie he]

/-- EXP = 1 is the identity of SHRINK (R73). -/
@[simp] theorem shrinkSeq_one (tie : Bit) (s : List Bit) : shrinkSeq tie s 1 = s := by
  simpa using shrinkSeq_expandSeq tie s Nat.one_pos

end Sys2Proof.Machine
end

