-- ==== Sys2Proof/Laws/BitPermutation.lean ====
section
/-! SUPPORT. The scan and the replay on sequences: swaps, key positions, the invariant of the scan, and the inverse
(42_bit_permutation.md). -/

namespace Sys2Proof.Machine

/-! ## Swaps -/

@[simp] theorem swapAt_length (s : List Bit) (a b : Nat) : (swapAt s a b).length = s.length := by
  unfold swapAt
  split <;> simp

/-- An exchange of two positions of the sequence, item by item. -/
theorem swapAt_getElem? (s : List Bit) {a b : Nat} (ha : a < s.length) (hb : b < s.length) (k : Nat) :
    (swapAt s a b)[k]? = if k = a then s[b]? else if k = b then s[a]? else s[k]? := by
  unfold swapAt
  simp only [List.getElem?_eq_getElem ha, List.getElem?_eq_getElem hb, List.getElem?_set, List.length_set]
  grind

/-- A swap is its own inverse (R84). -/
@[simp] theorem swapAt_swapAt (s : List Bit) (a b : Nat) : swapAt (swapAt s a b) a b = s := by
  by_cases h : a < s.length ∧ b < s.length
  · apply List.ext_getElem?
    intro k
    rw [swapAt_getElem? _ (by simpa using h.1) (by simpa using h.2), swapAt_getElem? _ h.1 h.2,
      swapAt_getElem? _ h.1 h.2, swapAt_getElem? _ h.1 h.2]
    grind
  · have : ∀ t : List Bit, t.length = s.length → swapAt t a b = t := by
      intro t ht
      unfold swapAt
      split
      · rename_i x y hx hy
        have := (List.getElem?_eq_some_iff.1 hx).1
        have := (List.getElem?_eq_some_iff.1 hy).1
        omega
      · rfl
    rw [this s rfl, this s rfl]

theorem swapAt_perm (s : List Bit) (a b : Nat) : (swapAt s a b).Perm s := by
  unfold swapAt
  split
  · rename_i x y hx hy
    obtain ⟨ha, rfl⟩ := List.getElem?_eq_some_iff.1 hx
    obtain ⟨hb, rfl⟩ := List.getElem?_eq_some_iff.1 hy
    exact List.set_set_perm ha hb
  · exact List.Perm.refl s

/-! ## Key positions -/

theorem keyPositionsFrom_append (base : Nat) (ks : List Nat) (k : Nat) :
    keyPositionsFrom base (ks ++ [k]) = keyPositionsFrom base ks ++ [base + ks.sum + ks.length + k] := by
  induction ks generalizing base with
  | nil => simp [keyPositionsFrom]
  | cons a ks ih =>
    simp only [List.cons_append, keyPositionsFrom, ih, List.sum_cons, List.length_cons]
    congr 3
    omega

theorem keyPositions_append (ks : List Nat) (k : Nat) :
    keyPositions (ks ++ [k]) = keyPositions ks ++ [ks.sum + ks.length + k] := by
  simpa [keyPositions] using keyPositionsFrom_append 0 ks k

@[simp] theorem keyPositions_nil : keyPositions [] = [] := rfl

@[simp] theorem keyPositionsFrom_length (base : Nat) (ks : List Nat) :
    (keyPositionsFrom base ks).length = ks.length := by
  induction ks generalizing base with
  | nil => rfl
  | cons a ks ih => simp [keyPositionsFrom, ih]

@[simp] theorem keyPositions_length (ks : List Nat) : (keyPositions ks).length = ks.length :=
  keyPositionsFrom_length 0 ks

/-- `p[0] = key[0]` and `p[t] = p[t-1] + 1 + key[t]` (R83). -/
theorem keyPositionsFrom_getElem_zero (base k : Nat) (ks : List Nat) :
    (keyPositionsFrom base (k :: ks))[0]? = some (base + k) := rfl

theorem keyPositionsFrom_step (base : Nat) (ks : List Nat) (r : Nat) (h : r + 1 < ks.length) :
    (keyPositionsFrom base ks).getD (r + 1) 0 =
      (keyPositionsFrom base ks).getD r 0 + 1 + ks.getD (r + 1) 0 := by
  induction ks generalizing base r with
  | nil => simp at h
  | cons a ks ih =>
    cases r with
    | zero =>
      cases ks with
      | nil => simp at h
      | cons b ks => simp [keyPositionsFrom]
    | succ r => simpa [keyPositionsFrom] using ih (base + a + 1) r (by simpa using h)

theorem keyPositionsFrom_ge (base : Nat) (ks : List Nat) : ∀ p ∈ keyPositionsFrom base ks, base ≤ p := by
  induction ks generalizing base with
  | nil => simp [keyPositionsFrom]
  | cons a ks ih =>
    simp only [keyPositionsFrom, List.mem_cons, forall_eq_or_imp]
    exact ⟨by omega, fun p hp => by have := ih (base + a + 1) p hp; omega⟩

/-- The positions rise strictly (R83). -/
theorem keyPositionsFrom_rising (base : Nat) (ks : List Nat) :
    (keyPositionsFrom base ks).Pairwise (· < ·) := by
  induction ks generalizing base with
  | nil => simp [keyPositionsFrom]
  | cons a ks ih =>
    simp only [keyPositionsFrom, List.pairwise_cons]
    exact ⟨fun p hp => by have := keyPositionsFrom_ge _ _ p hp; omega, ih _⟩

/-- Well-formedness is a bound on the sum (R83). -/
theorem keyWellFormed_iff_sum (key : List Nat) (n : Nat) :
    keyWellFormed key n = true ↔ key = [] ∨ key.sum + key.length + 1 ≤ n := by
  induction key using List.reverseRecOn with
  | nil => simp [keyWellFormed]
  | append_singleton ks k _ =>
    simp [keyWellFormed, keyPositions_append]
    omega

/-- Well-formedness says that every position and its successor are indexes (R83). -/
theorem keyWellFormed_iff_all (key : List Nat) (n : Nat) :
    keyWellFormed key n = true ↔ ∀ p ∈ keyPositions key, p + 2 ≤ n := by
  induction key using List.reverseRecOn with
  | nil => simp [keyWellFormed]
  | append_singleton ks k _ =>
    have hr := keyPositionsFrom_rising 0 (ks ++ [k])
    rw [show keyPositionsFrom 0 (ks ++ [k]) = keyPositions (ks ++ [k]) from rfl, keyPositions_append,
      List.pairwise_append] at hr
    have hlt := hr.2.2
    simp only [keyWellFormed, keyPositions_append, List.getLast?_append, List.getLast?_singleton,
      Option.some_or, decide_eq_true_eq, List.mem_append, List.mem_singleton]
    constructor
    · rintro h p (hp | rfl)
      · have := hlt p hp _ (List.mem_singleton.2 rfl); omega
      · exact h
    · intro h; exact h _ (Or.inr rfl)

/-- What `bad(key, n)` is when the key is malformed (R83). -/
theorem badEntry_spec {key : List Nat} {n : Nat} (h : keyWellFormed key n = false) :
    badEntry key n < key.length ∧ n < (keyPositions key).getD (badEntry key n) 0 + 2 ∧
      ∀ r, r < badEntry key n → (keyPositions key).getD r 0 + 2 ≤ n := by
  have hex : ∃ p ∈ keyPositions key, n < p + 2 := by
    by_contra hc
    push Not at hc
    rw [(keyWellFormed_iff_all key n).2 hc] at h
    exact absurd h (by simp)
  have hlt : badEntry key n < (keyPositions key).length :=
    List.findIdx_lt_length_of_exists (by simpa using hex)
  refine ⟨by simpa using hlt, ?_, ?_⟩
  · have := List.findIdx_getElem (w := hlt)
    rw [List.getD_eq_getElem _ _ hlt]
    exact of_decide_eq_true this
  · intro r hr
    have := List.not_of_lt_findIdx hr
    rw [List.getD_eq_getElem _ _ (by omega)]
    simpa using this

/-- `bad` is the only index with that description. -/
theorem badEntry_eq {key : List Nat} {n bad : Nat} (hb : bad < key.length)
    (h1 : n < (keyPositions key).getD bad 0 + 2)
    (h2 : ∀ r, r < bad → (keyPositions key).getD r 0 + 2 ≤ n) :
    keyWellFormed key n = false ∧ badEntry key n = bad := by
  have hw : keyWellFormed key n = false := by
    rw [Bool.eq_false_iff]
    intro hc
    have hb' : bad < (keyPositions key).length := by simpa using hb
    have := (keyWellFormed_iff_all key n).1 hc _ (List.getElem_mem hb')
    rw [List.getD_eq_getElem _ _ hb'] at h1
    omega
  refine ⟨hw, ?_⟩
  obtain ⟨-, g1, g2⟩ := badEntry_spec hw
  rcases Nat.lt_trichotomy (badEntry key n) bad with h | h | h
  · have := h2 _ h; omega
  · exact h
  · have := g2 _ h; omega

/-! ## The cursor over transition indexes -/

/-- The cursor after a list of transition indexes. -/
def cursorAfter (c : Nat) (cur : Cursor) (ps : List Nat) : Cursor :=
  ps.foldl (fun cur p => (cursorStep c cur p).1) cur

theorem swapsFrom_append (c : Nat) (cur : Cursor) (ps : List Nat) (p : Nat) :
    swapsFrom c cur (ps ++ [p]) =
      swapsFrom c cur ps ++ (cursorStep c (cursorAfter c cur ps) p).2.toList := by
  induction ps generalizing cur with
  | nil => simp [swapsFrom, cursorAfter]
  | cons a ps ih =>
    simp only [List.cons_append, swapsFrom, ih, List.append_assoc]
    rfl

theorem cursorAfter_append (c : Nat) (cur : Cursor) (ps : List Nat) (p : Nat) :
    cursorAfter c cur (ps ++ [p]) = (cursorStep c (cursorAfter c cur ps) p).1 := by
  simp [cursorAfter]

/-- At every swap over rising indexes `j + 1 <= i` (R81). -/
theorem swapsFrom_bounds (c : Nat) (ps : List Nat) (cur : Cursor) (hp : ps.Pairwise (· < ·))
    (hc : ∀ j, cur = some j → ∀ p ∈ ps, j < p) :
    ∀ ab ∈ swapsFrom c cur ps, ∃ i ∈ ps, ab.2 = i + 1 ∧ ab.1 ≤ i := by
  induction ps generalizing cur with
  | nil => simp [swapsFrom]
  | cons p ps ih =>
    obtain ⟨hlt, hp'⟩ := List.pairwise_cons.1 hp
    intro ab hab
    simp only [swapsFrom, List.mem_append, Option.mem_toList] at hab
    have hcur : ∀ j, (cursorStep c cur p).1 = some j → j ≤ p := by
      intro j hj
      unfold cursorStep at hj
      split at hj
      · simp at hj; omega
      · rename_i j0
        have := hc j0 rfl p (by simp)
        split at hj <;> simp at hj <;> omega
    rcases hab with hab | hab
    · refine ⟨p, by simp, ?_⟩
      unfold cursorStep at hab
      split at hab
      · simp at hab
      · rename_i j0
        have := hc j0 rfl p (by simp)
        split at hab
        · simp at hab
        · simp at hab; subst hab; exact ⟨rfl, by omega⟩
    · obtain ⟨i, hi, h⟩ := ih _ hp' (fun j hj q hq => by have := hcur j hj; have := hlt q hq; omega) ab hab
      exact ⟨i, by simp [hi], h⟩

/-! ## The scan -/

@[simp] theorem undoSwaps_nil (s : List Bit) : undoSwaps [] s = s := rfl

theorem undoSwaps_append (l l' : List (Nat × Nat)) (s : List Bit) :
    undoSwaps (l ++ l') s = undoSwaps l (undoSwaps l' s) := by simp [undoSwaps]

@[simp] theorem undoSwaps_length (l : List (Nat × Nat)) (s : List Bit) :
    (undoSwaps l s).length = s.length := by
  induction l with
  | nil => rfl
  | cons a l ih => simpa [undoSwaps] using ih

@[simp] theorem replayCore_length (s : List Bit) (key : List Nat) (c : Nat) :
    (replayCore s key c).length = s.length := by simp [replayCore]

theorem undoSwaps_perm (l : List (Nat × Nat)) (s : List Bit) : (undoSwaps l s).Perm s := by
  induction l with
  | nil => exact List.Perm.refl s
  | cons a l ih => exact (swapAt_perm _ _ _).trans ih

/-- What the scan holds once the first `i` indexes are visited: the key determines the indexes visited,
the cursor and the swaps made, and undoing them gives the input back (R80, R82, R84). -/
structure ScanInv (c : Nat) (s : List Bit) (i : Nat) (st : Scan) : Prop where
  visited : st.key.sum + st.key.length + st.steps = i
  cursor : st.cursor = cursorAfter c none (keyPositions st.key)
  undo : undoSwaps (swapsFrom c none (keyPositions st.key)) st.seq = s
  perm : st.seq.Perm s

theorem ScanInv.step {c : Nat} {s : List Bit} {i : Nat} {st : Scan} (h : ScanInv c s i st) :
    ScanInv c s (i + 1) (scanStep c st i) := by
  obtain ⟨hv, hc, hu, hp⟩ := h
  unfold scanStep
  by_cases ht : st.seq[i]? ≠ st.seq[i + 1]?
  · rw [if_pos ht]
    have hpos : keyPositions (st.key ++ [st.steps]) = keyPositions st.key ++ [i] := by
      rw [keyPositions_append, hv]
    refine ⟨by simp; omega, ?_, ?_, ?_⟩
    · simp only [hpos, cursorAfter_append, hc]
    · simp only [hpos, swapsFrom_append, ← hc, undoSwaps_append]
      rcases hr : cursorStep c st.cursor i with ⟨cur', _ | ⟨a, b⟩⟩
      · simpa using hu
      · simpa [undoSwaps] using hu
    · rcases hr : cursorStep c st.cursor i with ⟨cur', _ | ⟨a, b⟩⟩
      · exact hp
      · exact (swapAt_perm _ _ _).trans hp
  · rw [if_neg ht]
    exact ⟨by simp; omega, hc, hu, hp⟩

@[simp] theorem scanUpTo_zero (s : List Bit) (c : Nat) :
    scanUpTo s c 0 = { seq := s, key := [], steps := 0, cursor := none } := rfl

theorem scanUpTo_succ (s : List Bit) (c i : Nat) : scanUpTo s c (i + 1) = scanStep c (scanUpTo s c i) i := by
  simp [scanUpTo, List.range_succ]

theorem ScanInv.range (c : Nat) (s : List Bit) (i : Nat) : ScanInv c s i (scanUpTo s c i) := by
  induction i with
  | zero => exact ⟨rfl, rfl, rfl, List.Perm.refl s⟩
  | succ i ih => rw [scanUpTo_succ]; exact ih.step

theorem permuteScan_inv (s : List Bit) (c : Nat) : ScanInv c s (s.length - 1) (permuteScan s c) :=
  ScanInv.range c s (s.length - 1)

theorem permuteCore_perm (s : List Bit) (c : Nat) : (permuteCore s c).1.Perm s := (permuteScan_inv s c).perm

@[simp] theorem permuteCore_length (s : List Bit) (c : Nat) : (permuteCore s c).1.length = s.length :=
  (permuteCore_perm s c).length_eq

/-- The bound of the recorded key (R85 (b)). -/
theorem permuteCore_key_bound (s : List Bit) (c : Nat) :
    (permuteCore s c).2.sum + (permuteCore s c).2.length ≤ s.length - 1 := by
  have := (permuteScan_inv s c).visited
  show (permuteScan s c).key.sum + (permuteScan s c).key.length ≤ _
  omega

theorem permuteCore_keyWellFormed (s : List Bit) (c : Nat) :
    keyWellFormed (permuteCore s c).2 s.length = true := by
  rw [keyWellFormed_iff_sum]
  have := permuteCore_key_bound s c
  rcases hk : (permuteCore s c).2 with _ | ⟨k, ks⟩
  · exact Or.inl rfl
  · rw [hk] at this
    simp only [List.length_cons] at this ⊢
    right
    omega

theorem le_sum_of_mem {ks : List Nat} {k : Nat} (h : k ∈ ks) : k + 1 ≤ ks.sum + ks.length := by
  induction ks with
  | nil => simp at h
  | cons a ks ih =>
    simp only [List.sum_cons, List.length_cons]
    rcases List.mem_cons.1 h with rfl | h
    · omega
    · have := ih h; omega

/-- Every entry of the recorded key is at most n - 2 (R85 (b)). -/
theorem permuteCore_entry_bound (s : List Bit) (c : Nat) {k : Nat} (h : k ∈ (permuteCore s c).2) :
    k + 2 ≤ s.length := by
  have h1 := permuteCore_key_bound s c
  have h2 := le_sum_of_mem h
  omega

/-- The positions of the key recorded so far are the transitions met so far (R80, R83). -/
theorem keyPositions_scanUpTo (s : List Bit) (c i : Nat) :
    keyPositions (scanUpTo s c i).key =
      (List.range i).filter fun k => (scanUpTo s c k).seq[k]? != (scanUpTo s c k).seq[k + 1]? := by
  induction i with
  | zero => rfl
  | succ i ih =>
    rw [scanUpTo_succ, List.range_succ, List.filter_append, ← ih]
    by_cases ht : (scanUpTo s c i).seq[i]? = (scanUpTo s c i).seq[i + 1]?
    · simp [scanStep, ht]
    · simp [scanStep, ht, keyPositions_append, (ScanInv.range c s i).visited]

/-- The positions of the recorded key are the transitions of the scan on the live sequence (R83, R85 (e)). -/
theorem keyPositions_permuteCore (s : List Bit) (c : Nat) :
    keyPositions (permuteCore s c).2 = liveTransitions s c :=
  keyPositions_scanUpTo s c (s.length - 1)

/-- Where the cursor never swaps, or the scan meets no transition, the sequence stays (R85 (d)). -/
theorem scanUpTo_one_seq (s : List Bit) (i : Nat) : (scanUpTo s 1 i).seq = s := by
  induction i with
  | zero => rfl
  | succ i ih =>
    rw [scanUpTo_succ, scanStep]
    split
    · cases (scanUpTo s 1 i).cursor <;> simp [cursorStep, Nat.mod_one, ih]
    · exact ih

theorem scanUpTo_replicate_seq (b : Bit) (n c i : Nat) (h : i + 1 ≤ n) :
    (scanUpTo (List.replicate n b) c i).seq = List.replicate n b := by
  induction i with
  | zero => rfl
  | succ i ih =>
    have hs := ih (by omega)
    have he : (List.replicate n b)[i]? = (List.replicate n b)[i + 1]? := by
      rw [List.getElem?_replicate, List.getElem?_replicate, if_pos (by omega), if_pos (by omega)]
    rw [scanUpTo_succ, scanStep, hs, if_neg (by simp [he])]

/-- Replaying the recorded key undoes the permutation (R85 (a)). -/
theorem replayCore_permuteCore (s : List Bit) (c : Nat) :
    replayCore (permuteCore s c).1 (permuteCore s c).2 c = s :=
  (permuteScan_inv s c).undo

end Sys2Proof.Machine
end

