-- ==== Sys2Proof/Laws/State.lean ====
section
/-! SUPPORT. What each named update of State leaves in each field: true by unfolding, once, so that no later proof unfolds a
record update. -/

namespace Sys2Proof.Machine

variable (s : State)

/-! ## `State.writeBufCell` -/

@[simp] theorem writeBufCell_cfg (k : Nat) (b : Bit) : (s.writeBufCell k b).cfg = s.cfg := rfl
@[simp] theorem writeBufCell_buf (k : Nat) (b : Bit) : (s.writeBufCell k b).buf = Memory.write s.buf k b := rfl
@[simp] theorem writeBufCell_len (k : Nat) (b : Bit) : (s.writeBufCell k b).len = s.len := rfl
@[simp] theorem writeBufCell_key (k : Nat) (b : Bit) : (s.writeBufCell k b).key = s.key := rfl
@[simp] theorem writeBufCell_klen (k : Nat) (b : Bit) : (s.writeBufCell k b).klen = s.klen := rfl
@[simp] theorem writeBufCell_chunk (k : Nat) (b : Bit) : (s.writeBufCell k b).chunk = s.chunk := rfl
@[simp] theorem writeBufCell_exp (k : Nat) (b : Bit) : (s.writeBufCell k b).exp = s.exp := rfl
@[simp] theorem writeBufCell_zpad (k : Nat) (b : Bit) : (s.writeBufCell k b).zpad = s.zpad := rfl
@[simp] theorem writeBufCell_opad (k : Nat) (b : Bit) : (s.writeBufCell k b).opad = s.opad := rfl
@[simp] theorem writeBufCell_cmd (k : Nat) (b : Bit) : (s.writeBufCell k b).cmd = s.cmd := rfl
@[simp] theorem writeBufCell_busy (k : Nat) (b : Bit) : (s.writeBufCell k b).busy = s.busy := rfl
@[simp] theorem writeBufCell_done (k : Nat) (b : Bit) : (s.writeBufCell k b).done = s.done := rfl
@[simp] theorem writeBufCell_err (k : Nat) (b : Bit) : (s.writeBufCell k b).err = s.err := rfl
@[simp] theorem writeBufCell_errcode (k : Nat) (b : Bit) : (s.writeBufCell k b).errcode = s.errcode := rfl
@[simp] theorem writeBufCell_errinfo (k : Nat) (b : Bit) : (s.writeBufCell k b).errinfo = s.errinfo := rfl
@[simp] theorem writeBufCell_ie (k : Nat) (b : Bit) : (s.writeBufCell k b).ie = s.ie := rfl
@[simp] theorem writeBufCell_ainc (k : Nat) (b : Bit) : (s.writeBufCell k b).ainc = s.ainc := rfl
@[simp] theorem writeBufCell_bidx (k : Nat) (b : Bit) : (s.writeBufCell k b).bidx = s.bidx := rfl
@[simp] theorem writeBufCell_kidx (k : Nat) (b : Bit) : (s.writeBufCell k b).kidx = s.kidx := rfl
@[simp] theorem writeBufCell_bufEpoch (k : Nat) (b : Bit) : (s.writeBufCell k b).bufEpoch = s.bufEpoch := rfl
@[simp] theorem writeBufCell_keyEpoch (k : Nat) (b : Bit) : (s.writeBufCell k b).keyEpoch = s.keyEpoch := rfl
@[simp] theorem writeBufCell_delay (k : Nat) (b : Bit) : (s.writeBufCell k b).delay = s.delay := rfl
@[simp] theorem writeBufCell_accepted (k : Nat) (b : Bit) : (s.writeBufCell k b).accepted = s.accepted := rfl
@[simp] theorem writeBufCell_script (k : Nat) (b : Bit) : (s.writeBufCell k b).script = s.script := rfl
@[simp] theorem writeBufCell_log (k : Nat) (b : Bit) : (s.writeBufCell k b).log = s.log := rfl

/-! ## `State.writeKeyEntry` -/

@[simp] theorem writeKeyEntry_cfg (t : Nat) (v : Word) : (s.writeKeyEntry t v).cfg = s.cfg := rfl
@[simp] theorem writeKeyEntry_buf (t : Nat) (v : Word) : (s.writeKeyEntry t v).buf = s.buf := rfl
@[simp] theorem writeKeyEntry_len (t : Nat) (v : Word) : (s.writeKeyEntry t v).len = s.len := rfl
@[simp] theorem writeKeyEntry_key (t : Nat) (v : Word) : (s.writeKeyEntry t v).key = Memory.write s.key t v := rfl
@[simp] theorem writeKeyEntry_klen (t : Nat) (v : Word) : (s.writeKeyEntry t v).klen = s.klen := rfl
@[simp] theorem writeKeyEntry_chunk (t : Nat) (v : Word) : (s.writeKeyEntry t v).chunk = s.chunk := rfl
@[simp] theorem writeKeyEntry_exp (t : Nat) (v : Word) : (s.writeKeyEntry t v).exp = s.exp := rfl
@[simp] theorem writeKeyEntry_zpad (t : Nat) (v : Word) : (s.writeKeyEntry t v).zpad = s.zpad := rfl
@[simp] theorem writeKeyEntry_opad (t : Nat) (v : Word) : (s.writeKeyEntry t v).opad = s.opad := rfl
@[simp] theorem writeKeyEntry_cmd (t : Nat) (v : Word) : (s.writeKeyEntry t v).cmd = s.cmd := rfl
@[simp] theorem writeKeyEntry_busy (t : Nat) (v : Word) : (s.writeKeyEntry t v).busy = s.busy := rfl
@[simp] theorem writeKeyEntry_done (t : Nat) (v : Word) : (s.writeKeyEntry t v).done = s.done := rfl
@[simp] theorem writeKeyEntry_err (t : Nat) (v : Word) : (s.writeKeyEntry t v).err = s.err := rfl
@[simp] theorem writeKeyEntry_errcode (t : Nat) (v : Word) : (s.writeKeyEntry t v).errcode = s.errcode := rfl
@[simp] theorem writeKeyEntry_errinfo (t : Nat) (v : Word) : (s.writeKeyEntry t v).errinfo = s.errinfo := rfl
@[simp] theorem writeKeyEntry_ie (t : Nat) (v : Word) : (s.writeKeyEntry t v).ie = s.ie := rfl
@[simp] theorem writeKeyEntry_ainc (t : Nat) (v : Word) : (s.writeKeyEntry t v).ainc = s.ainc := rfl
@[simp] theorem writeKeyEntry_bidx (t : Nat) (v : Word) : (s.writeKeyEntry t v).bidx = s.bidx := rfl
@[simp] theorem writeKeyEntry_kidx (t : Nat) (v : Word) : (s.writeKeyEntry t v).kidx = s.kidx := rfl
@[simp] theorem writeKeyEntry_bufEpoch (t : Nat) (v : Word) : (s.writeKeyEntry t v).bufEpoch = s.bufEpoch := rfl
@[simp] theorem writeKeyEntry_keyEpoch (t : Nat) (v : Word) : (s.writeKeyEntry t v).keyEpoch = s.keyEpoch := rfl
@[simp] theorem writeKeyEntry_delay (t : Nat) (v : Word) : (s.writeKeyEntry t v).delay = s.delay := rfl
@[simp] theorem writeKeyEntry_accepted (t : Nat) (v : Word) : (s.writeKeyEntry t v).accepted = s.accepted := rfl
@[simp] theorem writeKeyEntry_script (t : Nat) (v : Word) : (s.writeKeyEntry t v).script = s.script := rfl
@[simp] theorem writeKeyEntry_log (t : Nat) (v : Word) : (s.writeKeyEntry t v).log = s.log := rfl

/-! ## `State.advanceBidx` -/

@[simp] theorem advanceBidx_cfg : (s.advanceBidx).cfg = s.cfg := rfl
@[simp] theorem advanceBidx_buf : (s.advanceBidx).buf = s.buf := rfl
@[simp] theorem advanceBidx_len : (s.advanceBidx).len = s.len := rfl
@[simp] theorem advanceBidx_key : (s.advanceBidx).key = s.key := rfl
@[simp] theorem advanceBidx_klen : (s.advanceBidx).klen = s.klen := rfl
@[simp] theorem advanceBidx_chunk : (s.advanceBidx).chunk = s.chunk := rfl
@[simp] theorem advanceBidx_exp : (s.advanceBidx).exp = s.exp := rfl
@[simp] theorem advanceBidx_zpad : (s.advanceBidx).zpad = s.zpad := rfl
@[simp] theorem advanceBidx_opad : (s.advanceBidx).opad = s.opad := rfl
@[simp] theorem advanceBidx_cmd : (s.advanceBidx).cmd = s.cmd := rfl
@[simp] theorem advanceBidx_busy : (s.advanceBidx).busy = s.busy := rfl
@[simp] theorem advanceBidx_done : (s.advanceBidx).done = s.done := rfl
@[simp] theorem advanceBidx_err : (s.advanceBidx).err = s.err := rfl
@[simp] theorem advanceBidx_errcode : (s.advanceBidx).errcode = s.errcode := rfl
@[simp] theorem advanceBidx_errinfo : (s.advanceBidx).errinfo = s.errinfo := rfl
@[simp] theorem advanceBidx_ie : (s.advanceBidx).ie = s.ie := rfl
@[simp] theorem advanceBidx_ainc : (s.advanceBidx).ainc = s.ainc := rfl
@[simp] theorem advanceBidx_bidx : (s.advanceBidx).bidx = (if s.ainc then s.bidx + 1 else s.bidx) := rfl
@[simp] theorem advanceBidx_kidx : (s.advanceBidx).kidx = s.kidx := rfl
@[simp] theorem advanceBidx_bufEpoch : (s.advanceBidx).bufEpoch = s.bufEpoch := rfl
@[simp] theorem advanceBidx_keyEpoch : (s.advanceBidx).keyEpoch = s.keyEpoch := rfl
@[simp] theorem advanceBidx_delay : (s.advanceBidx).delay = s.delay := rfl
@[simp] theorem advanceBidx_accepted : (s.advanceBidx).accepted = s.accepted := rfl
@[simp] theorem advanceBidx_script : (s.advanceBidx).script = s.script := rfl
@[simp] theorem advanceBidx_log : (s.advanceBidx).log = s.log := rfl

/-! ## `State.advanceKidx` -/

@[simp] theorem advanceKidx_cfg : (s.advanceKidx).cfg = s.cfg := rfl
@[simp] theorem advanceKidx_buf : (s.advanceKidx).buf = s.buf := rfl
@[simp] theorem advanceKidx_len : (s.advanceKidx).len = s.len := rfl
@[simp] theorem advanceKidx_key : (s.advanceKidx).key = s.key := rfl
@[simp] theorem advanceKidx_klen : (s.advanceKidx).klen = s.klen := rfl
@[simp] theorem advanceKidx_chunk : (s.advanceKidx).chunk = s.chunk := rfl
@[simp] theorem advanceKidx_exp : (s.advanceKidx).exp = s.exp := rfl
@[simp] theorem advanceKidx_zpad : (s.advanceKidx).zpad = s.zpad := rfl
@[simp] theorem advanceKidx_opad : (s.advanceKidx).opad = s.opad := rfl
@[simp] theorem advanceKidx_cmd : (s.advanceKidx).cmd = s.cmd := rfl
@[simp] theorem advanceKidx_busy : (s.advanceKidx).busy = s.busy := rfl
@[simp] theorem advanceKidx_done : (s.advanceKidx).done = s.done := rfl
@[simp] theorem advanceKidx_err : (s.advanceKidx).err = s.err := rfl
@[simp] theorem advanceKidx_errcode : (s.advanceKidx).errcode = s.errcode := rfl
@[simp] theorem advanceKidx_errinfo : (s.advanceKidx).errinfo = s.errinfo := rfl
@[simp] theorem advanceKidx_ie : (s.advanceKidx).ie = s.ie := rfl
@[simp] theorem advanceKidx_ainc : (s.advanceKidx).ainc = s.ainc := rfl
@[simp] theorem advanceKidx_bidx : (s.advanceKidx).bidx = s.bidx := rfl
@[simp] theorem advanceKidx_kidx : (s.advanceKidx).kidx = (if s.ainc then s.kidx + 1 else s.kidx) := rfl
@[simp] theorem advanceKidx_bufEpoch : (s.advanceKidx).bufEpoch = s.bufEpoch := rfl
@[simp] theorem advanceKidx_keyEpoch : (s.advanceKidx).keyEpoch = s.keyEpoch := rfl
@[simp] theorem advanceKidx_delay : (s.advanceKidx).delay = s.delay := rfl
@[simp] theorem advanceKidx_accepted : (s.advanceKidx).accepted = s.accepted := rfl
@[simp] theorem advanceKidx_script : (s.advanceKidx).script = s.script := rfl
@[simp] theorem advanceKidx_log : (s.advanceKidx).log = s.log := rfl

/-! ## `State.takeFault` -/

@[simp] theorem takeFault_cfg (c : Cause) (i : Word) : (s.takeFault c i).cfg = s.cfg := rfl
@[simp] theorem takeFault_buf (c : Cause) (i : Word) : (s.takeFault c i).buf = s.buf := rfl
@[simp] theorem takeFault_len (c : Cause) (i : Word) : (s.takeFault c i).len = s.len := rfl
@[simp] theorem takeFault_key (c : Cause) (i : Word) : (s.takeFault c i).key = s.key := rfl
@[simp] theorem takeFault_klen (c : Cause) (i : Word) : (s.takeFault c i).klen = s.klen := rfl
@[simp] theorem takeFault_chunk (c : Cause) (i : Word) : (s.takeFault c i).chunk = s.chunk := rfl
@[simp] theorem takeFault_exp (c : Cause) (i : Word) : (s.takeFault c i).exp = s.exp := rfl
@[simp] theorem takeFault_zpad (c : Cause) (i : Word) : (s.takeFault c i).zpad = s.zpad := rfl
@[simp] theorem takeFault_opad (c : Cause) (i : Word) : (s.takeFault c i).opad = s.opad := rfl
@[simp] theorem takeFault_cmd (c : Cause) (i : Word) : (s.takeFault c i).cmd = s.cmd := rfl
@[simp] theorem takeFault_busy (c : Cause) (i : Word) : (s.takeFault c i).busy = false := rfl
@[simp] theorem takeFault_done (c : Cause) (i : Word) : (s.takeFault c i).done = s.done := rfl
@[simp] theorem takeFault_err (c : Cause) (i : Word) : (s.takeFault c i).err = true := rfl
@[simp] theorem takeFault_errcode (c : Cause) (i : Word) : (s.takeFault c i).errcode = c.code := rfl
@[simp] theorem takeFault_errinfo (c : Cause) (i : Word) : (s.takeFault c i).errinfo = i := rfl
@[simp] theorem takeFault_ie (c : Cause) (i : Word) : (s.takeFault c i).ie = s.ie := rfl
@[simp] theorem takeFault_ainc (c : Cause) (i : Word) : (s.takeFault c i).ainc = s.ainc := rfl
@[simp] theorem takeFault_bidx (c : Cause) (i : Word) : (s.takeFault c i).bidx = s.bidx := rfl
@[simp] theorem takeFault_kidx (c : Cause) (i : Word) : (s.takeFault c i).kidx = s.kidx := rfl
@[simp] theorem takeFault_bufEpoch (c : Cause) (i : Word) : (s.takeFault c i).bufEpoch = s.bufEpoch := rfl
@[simp] theorem takeFault_keyEpoch (c : Cause) (i : Word) : (s.takeFault c i).keyEpoch = s.keyEpoch := rfl
@[simp] theorem takeFault_delay (c : Cause) (i : Word) : (s.takeFault c i).delay = s.delay := rfl
@[simp] theorem takeFault_accepted (c : Cause) (i : Word) : (s.takeFault c i).accepted = s.accepted := rfl
@[simp] theorem takeFault_script (c : Cause) (i : Word) : (s.takeFault c i).script = s.script := rfl
@[simp] theorem takeFault_log (c : Cause) (i : Word) : (s.takeFault c i).log = s.log := rfl

/-! ## `State.acknowledge` -/

@[simp] theorem acknowledge_cfg : (s.acknowledge).cfg = s.cfg := rfl
@[simp] theorem acknowledge_buf : (s.acknowledge).buf = s.buf := rfl
@[simp] theorem acknowledge_len : (s.acknowledge).len = s.len := rfl
@[simp] theorem acknowledge_key : (s.acknowledge).key = s.key := rfl
@[simp] theorem acknowledge_klen : (s.acknowledge).klen = s.klen := rfl
@[simp] theorem acknowledge_chunk : (s.acknowledge).chunk = s.chunk := rfl
@[simp] theorem acknowledge_exp : (s.acknowledge).exp = s.exp := rfl
@[simp] theorem acknowledge_zpad : (s.acknowledge).zpad = s.zpad := rfl
@[simp] theorem acknowledge_opad : (s.acknowledge).opad = s.opad := rfl
@[simp] theorem acknowledge_cmd : (s.acknowledge).cmd = s.cmd := rfl
@[simp] theorem acknowledge_busy : (s.acknowledge).busy = s.busy := rfl
@[simp] theorem acknowledge_done : (s.acknowledge).done = s.done := rfl
@[simp] theorem acknowledge_err : (s.acknowledge).err = false := rfl
@[simp] theorem acknowledge_errcode : (s.acknowledge).errcode = 0 := rfl
@[simp] theorem acknowledge_errinfo : (s.acknowledge).errinfo = 0 := rfl
@[simp] theorem acknowledge_ie : (s.acknowledge).ie = s.ie := rfl
@[simp] theorem acknowledge_ainc : (s.acknowledge).ainc = s.ainc := rfl
@[simp] theorem acknowledge_bidx : (s.acknowledge).bidx = s.bidx := rfl
@[simp] theorem acknowledge_kidx : (s.acknowledge).kidx = s.kidx := rfl
@[simp] theorem acknowledge_bufEpoch : (s.acknowledge).bufEpoch = s.bufEpoch := rfl
@[simp] theorem acknowledge_keyEpoch : (s.acknowledge).keyEpoch = s.keyEpoch := rfl
@[simp] theorem acknowledge_delay : (s.acknowledge).delay = s.delay := rfl
@[simp] theorem acknowledge_accepted : (s.acknowledge).accepted = s.accepted := rfl
@[simp] theorem acknowledge_script : (s.acknowledge).script = s.script := rfl
@[simp] theorem acknowledge_log : (s.acknowledge).log = s.log := rfl

/-! ## `State.clearDone` -/

@[simp] theorem clearDone_cfg : (s.clearDone).cfg = s.cfg := rfl
@[simp] theorem clearDone_buf : (s.clearDone).buf = s.buf := rfl
@[simp] theorem clearDone_len : (s.clearDone).len = s.len := rfl
@[simp] theorem clearDone_key : (s.clearDone).key = s.key := rfl
@[simp] theorem clearDone_klen : (s.clearDone).klen = s.klen := rfl
@[simp] theorem clearDone_chunk : (s.clearDone).chunk = s.chunk := rfl
@[simp] theorem clearDone_exp : (s.clearDone).exp = s.exp := rfl
@[simp] theorem clearDone_zpad : (s.clearDone).zpad = s.zpad := rfl
@[simp] theorem clearDone_opad : (s.clearDone).opad = s.opad := rfl
@[simp] theorem clearDone_cmd : (s.clearDone).cmd = s.cmd := rfl
@[simp] theorem clearDone_busy : (s.clearDone).busy = s.busy := rfl
@[simp] theorem clearDone_done : (s.clearDone).done = false := rfl
@[simp] theorem clearDone_err : (s.clearDone).err = s.err := rfl
@[simp] theorem clearDone_errcode : (s.clearDone).errcode = s.errcode := rfl
@[simp] theorem clearDone_errinfo : (s.clearDone).errinfo = s.errinfo := rfl
@[simp] theorem clearDone_ie : (s.clearDone).ie = s.ie := rfl
@[simp] theorem clearDone_ainc : (s.clearDone).ainc = s.ainc := rfl
@[simp] theorem clearDone_bidx : (s.clearDone).bidx = s.bidx := rfl
@[simp] theorem clearDone_kidx : (s.clearDone).kidx = s.kidx := rfl
@[simp] theorem clearDone_bufEpoch : (s.clearDone).bufEpoch = s.bufEpoch := rfl
@[simp] theorem clearDone_keyEpoch : (s.clearDone).keyEpoch = s.keyEpoch := rfl
@[simp] theorem clearDone_delay : (s.clearDone).delay = s.delay := rfl
@[simp] theorem clearDone_accepted : (s.clearDone).accepted = s.accepted := rfl
@[simp] theorem clearDone_script : (s.clearDone).script = s.script := rfl
@[simp] theorem clearDone_log : (s.clearDone).log = s.log := rfl

/-! ## `State.accept` -/

@[simp] theorem accept_cfg (w : Word) : (s.accept w).cfg = s.cfg := rfl
@[simp] theorem accept_buf (w : Word) : (s.accept w).buf = s.buf := rfl
@[simp] theorem accept_len (w : Word) : (s.accept w).len = s.len := rfl
@[simp] theorem accept_key (w : Word) : (s.accept w).key = s.key := rfl
@[simp] theorem accept_klen (w : Word) : (s.accept w).klen = s.klen := rfl
@[simp] theorem accept_chunk (w : Word) : (s.accept w).chunk = s.chunk := rfl
@[simp] theorem accept_exp (w : Word) : (s.accept w).exp = s.exp := rfl
@[simp] theorem accept_zpad (w : Word) : (s.accept w).zpad = s.zpad := rfl
@[simp] theorem accept_opad (w : Word) : (s.accept w).opad = s.opad := rfl
@[simp] theorem accept_cmd (w : Word) : (s.accept w).cmd = w := rfl
@[simp] theorem accept_busy (w : Word) : (s.accept w).busy = true := rfl
@[simp] theorem accept_done (w : Word) : (s.accept w).done = false := rfl
@[simp] theorem accept_err (w : Word) : (s.accept w).err = s.err := rfl
@[simp] theorem accept_errcode (w : Word) : (s.accept w).errcode = s.errcode := rfl
@[simp] theorem accept_errinfo (w : Word) : (s.accept w).errinfo = s.errinfo := rfl
@[simp] theorem accept_ie (w : Word) : (s.accept w).ie = s.ie := rfl
@[simp] theorem accept_ainc (w : Word) : (s.accept w).ainc = s.ainc := rfl
@[simp] theorem accept_bidx (w : Word) : (s.accept w).bidx = s.bidx := rfl
@[simp] theorem accept_kidx (w : Word) : (s.accept w).kidx = s.kidx := rfl
@[simp] theorem accept_bufEpoch (w : Word) : (s.accept w).bufEpoch = s.bufEpoch := rfl
@[simp] theorem accept_keyEpoch (w : Word) : (s.accept w).keyEpoch = s.keyEpoch := rfl
@[simp] theorem accept_delay (w : Word) : (s.accept w).delay = Config.freeDelay s.accepted := rfl
@[simp] theorem accept_accepted (w : Word) : (s.accept w).accepted = s.accepted + 1 := rfl
@[simp] theorem accept_script (w : Word) : (s.accept w).script = s.script := rfl
@[simp] theorem accept_log (w : Word) : (s.accept w).log = s.log := rfl

/-! ## `State.present` -/

@[simp] theorem present_cfg (w : Word) : (s.present w).cfg = s.cfg := rfl
@[simp] theorem present_buf (w : Word) : (s.present w).buf = s.buf := rfl
@[simp] theorem present_len (w : Word) : (s.present w).len = s.len := rfl
@[simp] theorem present_key (w : Word) : (s.present w).key = s.key := rfl
@[simp] theorem present_klen (w : Word) : (s.present w).klen = s.klen := rfl
@[simp] theorem present_chunk (w : Word) : (s.present w).chunk = s.chunk := rfl
@[simp] theorem present_exp (w : Word) : (s.present w).exp = s.exp := rfl
@[simp] theorem present_zpad (w : Word) : (s.present w).zpad = s.zpad := rfl
@[simp] theorem present_opad (w : Word) : (s.present w).opad = s.opad := rfl
@[simp] theorem present_cmd (w : Word) : (s.present w).cmd = w := rfl
@[simp] theorem present_busy (w : Word) : (s.present w).busy = true := rfl
@[simp] theorem present_done (w : Word) : (s.present w).done = false := rfl
@[simp] theorem present_err (w : Word) : (s.present w).err = false := rfl
@[simp] theorem present_errcode (w : Word) : (s.present w).errcode = 0 := rfl
@[simp] theorem present_errinfo (w : Word) : (s.present w).errinfo = 0 := rfl
@[simp] theorem present_ie (w : Word) : (s.present w).ie = s.ie := rfl
@[simp] theorem present_ainc (w : Word) : (s.present w).ainc = s.ainc := rfl
@[simp] theorem present_bidx (w : Word) : (s.present w).bidx = s.bidx := rfl
@[simp] theorem present_kidx (w : Word) : (s.present w).kidx = s.kidx := rfl
@[simp] theorem present_bufEpoch (w : Word) : (s.present w).bufEpoch = s.bufEpoch := rfl
@[simp] theorem present_keyEpoch (w : Word) : (s.present w).keyEpoch = s.keyEpoch := rfl
@[simp] theorem present_delay (w : Word) : (s.present w).delay = 0 := rfl
@[simp] theorem present_accepted (w : Word) : (s.present w).accepted = s.accepted := rfl
@[simp] theorem present_script (w : Word) : (s.present w).script = s.script := rfl
@[simp] theorem present_log (w : Word) : (s.present w).log = s.log := rfl

/-! ## `State.commit` -/

@[simp] theorem commit_cfg (u : Updates) : (s.commit u).cfg = s.cfg := rfl
@[simp] theorem commit_buf (u : Updates) : (s.commit u).buf = (match u.buf with | some bits => Memory.ofList bits | none => s.buf) := rfl
@[simp] theorem commit_len (u : Updates) : (s.commit u).len = u.len.getD s.len := rfl
@[simp] theorem commit_key (u : Updates) : (s.commit u).key = (match u.key with | some words => Memory.ofList words | none => s.key) := rfl
@[simp] theorem commit_klen (u : Updates) : (s.commit u).klen = u.klen.getD s.klen := rfl
@[simp] theorem commit_chunk (u : Updates) : (s.commit u).chunk = s.chunk := rfl
@[simp] theorem commit_exp (u : Updates) : (s.commit u).exp = s.exp := rfl
@[simp] theorem commit_zpad (u : Updates) : (s.commit u).zpad = u.zpad.getD s.zpad := rfl
@[simp] theorem commit_opad (u : Updates) : (s.commit u).opad = u.opad.getD s.opad := rfl
@[simp] theorem commit_cmd (u : Updates) : (s.commit u).cmd = s.cmd := rfl
@[simp] theorem commit_busy (u : Updates) : (s.commit u).busy = false := rfl
@[simp] theorem commit_done (u : Updates) : (s.commit u).done = true := rfl
@[simp] theorem commit_err (u : Updates) : (s.commit u).err = s.err := rfl
@[simp] theorem commit_errcode (u : Updates) : (s.commit u).errcode = s.errcode := rfl
@[simp] theorem commit_errinfo (u : Updates) : (s.commit u).errinfo = s.errinfo := rfl
@[simp] theorem commit_ie (u : Updates) : (s.commit u).ie = s.ie := rfl
@[simp] theorem commit_ainc (u : Updates) : (s.commit u).ainc = s.ainc := rfl
@[simp] theorem commit_bidx (u : Updates) : (s.commit u).bidx = s.bidx := rfl
@[simp] theorem commit_kidx (u : Updates) : (s.commit u).kidx = s.kidx := rfl
@[simp] theorem commit_bufEpoch (u : Updates) : (s.commit u).bufEpoch = (if u.buf.isSome then s.bufEpoch + 1 else s.bufEpoch) := rfl
@[simp] theorem commit_keyEpoch (u : Updates) : (s.commit u).keyEpoch = (if u.key.isSome then s.keyEpoch + 1 else s.keyEpoch) := rfl
@[simp] theorem commit_delay (u : Updates) : (s.commit u).delay = s.delay := rfl
@[simp] theorem commit_accepted (u : Updates) : (s.commit u).accepted = s.accepted := rfl
@[simp] theorem commit_script (u : Updates) : (s.commit u).script = s.script := rfl
@[simp] theorem commit_log (u : Updates) : (s.commit u).log = s.log := rfl

/-! ## `State.writeCtrl` -/

@[simp] theorem writeCtrl_cfg (v : Word) : (s.writeCtrl v).cfg = s.cfg := rfl
@[simp] theorem writeCtrl_buf (v : Word) : (s.writeCtrl v).buf = s.buf := rfl
@[simp] theorem writeCtrl_len (v : Word) : (s.writeCtrl v).len = s.len := rfl
@[simp] theorem writeCtrl_key (v : Word) : (s.writeCtrl v).key = s.key := rfl
@[simp] theorem writeCtrl_klen (v : Word) : (s.writeCtrl v).klen = s.klen := rfl
@[simp] theorem writeCtrl_chunk (v : Word) : (s.writeCtrl v).chunk = s.chunk := rfl
@[simp] theorem writeCtrl_exp (v : Word) : (s.writeCtrl v).exp = s.exp := rfl
@[simp] theorem writeCtrl_zpad (v : Word) : (s.writeCtrl v).zpad = s.zpad := rfl
@[simp] theorem writeCtrl_opad (v : Word) : (s.writeCtrl v).opad = s.opad := rfl
@[simp] theorem writeCtrl_cmd (v : Word) : (s.writeCtrl v).cmd = s.cmd := rfl
@[simp] theorem writeCtrl_busy (v : Word) : (s.writeCtrl v).busy = s.busy := rfl
@[simp] theorem writeCtrl_done (v : Word) : (s.writeCtrl v).done = s.done := rfl
@[simp] theorem writeCtrl_err (v : Word) : (s.writeCtrl v).err = s.err := rfl
@[simp] theorem writeCtrl_errcode (v : Word) : (s.writeCtrl v).errcode = s.errcode := rfl
@[simp] theorem writeCtrl_errinfo (v : Word) : (s.writeCtrl v).errinfo = s.errinfo := rfl
@[simp] theorem writeCtrl_ie (v : Word) : (s.writeCtrl v).ie = wordBit v 0 := rfl
@[simp] theorem writeCtrl_ainc (v : Word) : (s.writeCtrl v).ainc = wordBit v 1 := rfl
@[simp] theorem writeCtrl_bidx (v : Word) : (s.writeCtrl v).bidx = s.bidx := rfl
@[simp] theorem writeCtrl_kidx (v : Word) : (s.writeCtrl v).kidx = s.kidx := rfl
@[simp] theorem writeCtrl_bufEpoch (v : Word) : (s.writeCtrl v).bufEpoch = s.bufEpoch := rfl
@[simp] theorem writeCtrl_keyEpoch (v : Word) : (s.writeCtrl v).keyEpoch = s.keyEpoch := rfl
@[simp] theorem writeCtrl_delay (v : Word) : (s.writeCtrl v).delay = s.delay := rfl
@[simp] theorem writeCtrl_accepted (v : Word) : (s.writeCtrl v).accepted = s.accepted := rfl
@[simp] theorem writeCtrl_script (v : Word) : (s.writeCtrl v).script = s.script := rfl
@[simp] theorem writeCtrl_log (v : Word) : (s.writeCtrl v).log = s.log := rfl

/-! ## `State.tick` -/

@[simp] theorem tick_cfg : (s.tick).cfg = s.cfg := rfl
@[simp] theorem tick_buf : (s.tick).buf = s.buf := rfl
@[simp] theorem tick_len : (s.tick).len = s.len := rfl
@[simp] theorem tick_key : (s.tick).key = s.key := rfl
@[simp] theorem tick_klen : (s.tick).klen = s.klen := rfl
@[simp] theorem tick_chunk : (s.tick).chunk = s.chunk := rfl
@[simp] theorem tick_exp : (s.tick).exp = s.exp := rfl
@[simp] theorem tick_zpad : (s.tick).zpad = s.zpad := rfl
@[simp] theorem tick_opad : (s.tick).opad = s.opad := rfl
@[simp] theorem tick_cmd : (s.tick).cmd = s.cmd := rfl
@[simp] theorem tick_busy : (s.tick).busy = s.busy := rfl
@[simp] theorem tick_done : (s.tick).done = s.done := rfl
@[simp] theorem tick_err : (s.tick).err = s.err := rfl
@[simp] theorem tick_errcode : (s.tick).errcode = s.errcode := rfl
@[simp] theorem tick_errinfo : (s.tick).errinfo = s.errinfo := rfl
@[simp] theorem tick_ie : (s.tick).ie = s.ie := rfl
@[simp] theorem tick_ainc : (s.tick).ainc = s.ainc := rfl
@[simp] theorem tick_bidx : (s.tick).bidx = s.bidx := rfl
@[simp] theorem tick_kidx : (s.tick).kidx = s.kidx := rfl
@[simp] theorem tick_bufEpoch : (s.tick).bufEpoch = s.bufEpoch := rfl
@[simp] theorem tick_keyEpoch : (s.tick).keyEpoch = s.keyEpoch := rfl
@[simp] theorem tick_delay : (s.tick).delay = s.delay - 1 := rfl
@[simp] theorem tick_accepted : (s.tick).accepted = s.accepted := rfl
@[simp] theorem tick_script : (s.tick).script = s.script := rfl
@[simp] theorem tick_log : (s.tick).log = s.log := rfl

/-! ## `State.assertReset` -/

@[simp] theorem assertReset_cfg : (s.assertReset).cfg = s.cfg := rfl
@[simp] theorem assertReset_buf : (s.assertReset).buf = [] := rfl
@[simp] theorem assertReset_len : (s.assertReset).len = 0 := rfl
@[simp] theorem assertReset_key : (s.assertReset).key = [] := rfl
@[simp] theorem assertReset_klen : (s.assertReset).klen = 0 := rfl
@[simp] theorem assertReset_chunk : (s.assertReset).chunk = 0 := rfl
@[simp] theorem assertReset_exp : (s.assertReset).exp = 0 := rfl
@[simp] theorem assertReset_zpad : (s.assertReset).zpad = 0 := rfl
@[simp] theorem assertReset_opad : (s.assertReset).opad = 0 := rfl
@[simp] theorem assertReset_cmd : (s.assertReset).cmd = 0 := rfl
@[simp] theorem assertReset_busy : (s.assertReset).busy = false := rfl
@[simp] theorem assertReset_done : (s.assertReset).done = false := rfl
@[simp] theorem assertReset_err : (s.assertReset).err = false := rfl
@[simp] theorem assertReset_errcode : (s.assertReset).errcode = 0 := rfl
@[simp] theorem assertReset_errinfo : (s.assertReset).errinfo = 0 := rfl
@[simp] theorem assertReset_ie : (s.assertReset).ie = false := rfl
@[simp] theorem assertReset_ainc : (s.assertReset).ainc = false := rfl
@[simp] theorem assertReset_bidx : (s.assertReset).bidx = 0 := rfl
@[simp] theorem assertReset_kidx : (s.assertReset).kidx = 0 := rfl
@[simp] theorem assertReset_bufEpoch : (s.assertReset).bufEpoch = s.bufEpoch + 1 := rfl
@[simp] theorem assertReset_keyEpoch : (s.assertReset).keyEpoch = s.keyEpoch + 1 := rfl
@[simp] theorem assertReset_delay : (s.assertReset).delay = 0 := rfl
@[simp] theorem assertReset_accepted : (s.assertReset).accepted = s.accepted := rfl
@[simp] theorem assertReset_script : (s.assertReset).script = s.script := rfl
@[simp] theorem assertReset_log : (s.assertReset).log = s.log := rfl

end Sys2Proof.Machine
end

