-- ==== Sys2Proof/Laws/Memory.lean ====
section
/-! SUPPORT. Memories of cells: read after write, the canonical form, and what lists of cells read as. -/

namespace Sys2Proof.Machine

variable {α : Type}

/-- A read of the cell just written gives what was written. -/
@[simp] theorem Memory.read_write_same (m : Memory α) (k : Nat) (v : α) :
    Memory.read (Memory.write m k v) k = some v := by
  induction m with
  | nil => simp [Memory.write, Memory.read]
  | cons c m ih =>
    obtain ⟨a, w⟩ := c
    simp only [Memory.write]
    split
    · simp [Memory.read]
    · split
      · simp [Memory.read]
      · simp [Memory.read, ih]; omega

/-- A write leaves every other cell alone. -/
theorem Memory.read_write_other (m : Memory α) {k j : Nat} (v : α) (h : j ≠ k) :
    Memory.read (Memory.write m k v) j = Memory.read m j := by
  induction m with
  | nil => simp [Memory.write, Memory.read, Ne.symm h]
  | cons c m ih =>
    obtain ⟨a, w⟩ := c
    simp only [Memory.write]
    split
    · simp [Memory.read, Ne.symm h]
    · split
      · rename_i h1 h2
        subst h2
        simp [Memory.read, Ne.symm h]
      · simp [Memory.read, ih]

theorem Memory.risingFrom_mono {m : Memory α} {lo lo' hi : Nat} (h : lo' ≤ lo)
    (hm : Memory.risingFrom lo hi m = true) : Memory.risingFrom lo' hi m = true := by
  cases m with
  | nil => rfl
  | cons c m => simp [Memory.risingFrom] at hm ⊢; exact ⟨⟨by omega, hm.1.2⟩, hm.2⟩

theorem Memory.risingFrom_write {m : Memory α} {lo hi k : Nat} (v : α) (h1 : lo ≤ k) (h2 : k < hi)
    (hm : Memory.risingFrom lo hi m = true) : Memory.risingFrom lo hi (Memory.write m k v) = true := by
  induction m generalizing lo with
  | nil => simp [Memory.write, Memory.risingFrom, h1, h2]
  | cons c m ih =>
    obtain ⟨a, w⟩ := c
    simp only [Memory.risingFrom, Bool.and_eq_true, decide_eq_true_eq] at hm
    simp only [Memory.write]
    split
    · simp [Memory.risingFrom, h1, h2, hm]; omega
    · split
      · rename_i h3
        subst h3
        simp [Memory.risingFrom, hm]
      · simp only [Memory.risingFrom, Bool.and_eq_true, decide_eq_true_eq]
        exact ⟨hm.1, ih (by omega) hm.2⟩

/-- A write below NMAX keeps the canonical form. -/
theorem Memory.wf_write {m : Memory α} {nmax k : Nat} (v : α) (h : k < nmax)
    (hm : Memory.wf nmax m = true) : Memory.wf nmax (Memory.write m k v) = true :=
  Memory.risingFrom_write v (Nat.zero_le k) h hm

theorem Memory.risingFrom_ofListFrom (xs : List α) {k hi : Nat} (h : k + xs.length ≤ hi) :
    Memory.risingFrom k hi (Memory.ofListFrom k xs) = true := by
  induction xs generalizing k with
  | nil => rfl
  | cons x xs ih =>
    simp only [List.length_cons] at h
    simp only [Memory.ofListFrom, Memory.risingFrom, Bool.and_eq_true, decide_eq_true_eq]
    exact ⟨⟨Nat.le_refl k, by omega⟩, ih (by omega)⟩

/-- A committed sequence of at most NMAX items is canonical. -/
theorem Memory.wf_ofList (xs : List α) {nmax : Nat} (h : xs.length ≤ nmax) :
    Memory.wf nmax (Memory.ofList xs) = true :=
  Memory.risingFrom_ofListFrom xs (by omega)

/-- The empty memory, which is what reset leaves, is canonical. -/
@[simp] theorem Memory.wf_nil (nmax : Nat) : Memory.wf nmax ([] : Memory α) = true := rfl

theorem Memory.read_ofListFrom_below (xs : List α) {k j : Nat} (h : j < k) :
    Memory.read (Memory.ofListFrom k xs) j = none := by
  induction xs generalizing k with
  | nil => rfl
  | cons x xs ih =>
    simp only [Memory.ofListFrom, Memory.read]
    rw [if_neg (by omega), ih (by omega)]

theorem Memory.read_ofListFrom (xs : List α) (k i : Nat) :
    Memory.read (Memory.ofListFrom k xs) (k + i) = xs[i]? := by
  induction xs generalizing k i with
  | nil => rfl
  | cons x xs ih =>
    simp only [Memory.ofListFrom, Memory.read]
    cases i with
    | zero => simp
    | succ i =>
      rw [if_neg (by omega), show k + (i + 1) = (k + 1) + i by omega, ih]
      simp

/-- After a commit cell `i` reads as item `i` of the list, and a cell above it is unspecified. -/
@[simp] theorem Memory.read_ofList (xs : List α) (i : Nat) :
    Memory.read (Memory.ofList xs) i = xs[i]? := by
  simpa [Memory.ofList] using Memory.read_ofListFrom xs 0 i

/-! ## Cells and sequences of a state -/

@[simp] theorem bufSeq_length (s : State) : s.bufSeq.length = s.len.toNat := by simp [State.bufSeq]

@[simp] theorem keySeq_length (s : State) : s.keySeq.length = s.klen.toNat := by simp [State.keySeq]

theorem bufSeq_getElem? (s : State) (k : Nat) :
    s.bufSeq[k]? = if k < s.len.toNat then some (s.bufCell k) else none := by
  by_cases h : k < s.len.toNat <;> simp [State.bufSeq, h]

/-- The working sequence is `xs` when LEN is its length and the live cells hold its items. -/
theorem bufSeq_eq_of_cells {s : State} {xs : List Bit} (hl : s.len.toNat = xs.length)
    (h : ∀ k (hk : k < xs.length), s.bufCell k = xs[k]) : s.bufSeq = xs := by
  apply List.ext_getElem (by simp [hl])
  intro k h1 h2
  simp [State.bufSeq, h k h2]

/-- The working sequence depends on LEN and the live cells alone. -/
theorem bufSeq_congr {s t : State} (hl : t.len = s.len) (h : SameBuf s t) : t.bufSeq = s.bufSeq := by
  simp only [State.bufSeq, hl]
  exact List.map_congr_left fun k _ => h k

/-- The SwapKey depends on KLEN and the live entries alone. -/
theorem keySeq_congr {s t : State} (hl : t.klen = s.klen) (h : SameKey s t) : t.keySeq = s.keySeq := by
  simp only [State.keySeq, hl]
  exact List.map_congr_left fun k _ => by rw [h k]

@[simp] theorem toReg_toNat {n : Nat} (h : n < 2 ^ 32) : (toReg n).toNat = n := by
  simp only [toReg, BitVec.toNat_ofNat]
  exact Nat.mod_eq_of_lt h

@[simp] theorem toReg_self (w : Word) : toReg w.toNat = w := by simp [toReg]

end Sys2Proof.Machine
end

