-- ==== Sys2Proof/Laws/RunLengthPadder.lean ====
section
/-! SUPPORT. The run_length_padder's functions on sequences: the tail runs, the padded sequence, and depadding
(43_run_length_padder.md). -/

namespace Sys2Proof.Machine

/-! ## Trailing runs -/

theorem trailingRun_le (b : Bit) (s : List Bit) : trailingRun b s ≤ s.length := by
  simpa [trailingRun] using (List.takeWhile_sublist (l := s.reverse) (· == b)).length_le

/-- A sequence is what stands before its trailing run of `b`, and that run. -/
theorem take_append_trailingRun (b : Bit) (s : List Bit) :
    s.take (s.length - trailingRun b s) ++ List.replicate (trailingRun b s) b = s := by
  have h := List.takeWhile_append_dropWhile (p := (· == b)) (l := s.reverse)
  have hr : s.reverse.takeWhile (· == b) = List.replicate (trailingRun b s) b := by
    rw [List.eq_replicate_iff]
    exact ⟨rfl, fun x hx => by simpa using List.mem_takeWhile_imp hx⟩
  have h2 : s = (s.reverse.dropWhile (· == b)).reverse ++ List.replicate (trailingRun b s) b := by
    have := congrArg List.reverse h
    rw [List.reverse_append, List.reverse_reverse, hr, List.reverse_replicate] at this
    exact this.symm
  have hl : (s.reverse.dropWhile (· == b)).length = s.length - trailingRun b s := by
    have := congrArg List.length h2
    simp only [List.length_append, List.length_reverse, List.length_replicate] at this
    omega
  have ht := congrArg (List.take (s.length - trailingRun b s)) h2
  rw [List.take_left' (by simpa using hl)] at ht
  rw [ht, ← h2]

/-- What stands just before the trailing run of `b` is not `b`. -/
theorem getElem?_before_trailingRun (b : Bit) (s : List Bit) (h : trailingRun b s < s.length) :
    s[s.length - trailingRun b s - 1]? = some (!b) := by
  have hd : (s.reverse.dropWhile (· == b)) ≠ [] := by
    intro hc
    have := congrArg List.length (List.takeWhile_append_dropWhile (p := (· == b)) (l := s.reverse))
    rw [hc] at this
    simp only [List.append_nil, List.length_reverse] at this
    unfold trailingRun at h
    omega
  have h0 := List.head_dropWhile_not (· == b) hd
  have h1 : s.reverse[trailingRun b s]? = some ((s.reverse.dropWhile (· == b)).head hd) := by
    conv_lhs => rw [← List.takeWhile_append_dropWhile (p := (· == b)) (l := s.reverse)]
    rw [List.getElem?_append_right (by simp [trailingRun])]
    simp [trailingRun, List.head?_eq_some_head hd, ← List.head?_eq_getElem?]
  rw [List.getElem?_reverse (by omega)] at h1
  rw [show s.length - trailingRun b s - 1 = s.length - 1 - trailingRun b s by omega, h1]
  congr 1
  revert h0
  cases (s.reverse.dropWhile (· == b)).head hd <;> cases b <;> simp

/-- Every index of the trailing run of `b` holds `b`. -/
theorem getElem?_in_trailingRun (b : Bit) (s : List Bit) {k : Nat} (h1 : s.length - trailingRun b s ≤ k)
    (h2 : k < s.length) : s[k]? = some b := by
  rw [← take_append_trailingRun b s, List.getElem?_append_right (by simp; omega)]
  have := trailingRun_le b s
  simp [List.getElem?_replicate]
  omega

theorem trailingRun_pos {b : Bit} {s : List Bit} (h : s.getLast? = some b) : 0 < trailingRun b s := by
  rw [← List.head?_reverse] at h
  unfold trailingRun
  cases hr : s.reverse with
  | nil => simp [hr] at h
  | cons a l => simp [hr] at h; simp [h]

theorem trailingRun_append_replicate (b : Bit) (s : List Bit) (k : Nat) :
    trailingRun b (s ++ List.replicate k b) = trailingRun b s + k := by
  simp [trailingRun, List.takeWhile_append_of_pos, Nat.add_comm]

theorem trailingRun_of_last_ne {b : Bit} {s : List Bit} (h : s.getLast? ≠ some b) : trailingRun b s = 0 := by
  rw [← List.head?_reverse] at h
  unfold trailingRun
  cases hr : s.reverse with
  | nil => rfl
  | cons a l => simp [hr] at h; simp [h]

/-! ## TailRuns -/

theorem tailRuns_first {s : List Bit} (hs : s ≠ []) : s.getLast? = some (tailRuns s).first := by
  simp [tailRuns, List.getLast?_eq_some_getLast hs, List.getLastD_eq_getLast?]

theorem tailRuns_d (s : List Bit) : (tailRuns s).d = s.length - trailingRun (tailRuns s).first s := rfl

theorem tailRuns_l1 (s : List Bit) : (tailRuns s).l1 = trailingRun (tailRuns s).first s := by
  have := trailingRun_le (tailRuns s).first s
  show s.length - (tailRuns s).d = _
  rw [tailRuns_d]
  omega

theorem tailRuns_l2 (s : List Bit) :
    (tailRuns s).l2 = trailingRun (!(tailRuns s).first) (s.take (tailRuns s).d) := by
  show (if (tailRuns s).d = 0 then 0 else _) = _
  split
  · rename_i h; simp [h, trailingRun]
  · rfl

theorem tailRuns_d_le (s : List Bit) : (tailRuns s).d ≤ s.length := Nat.sub_le _ _

theorem tailRuns_d_add_l1 (s : List Bit) : (tailRuns s).d + (tailRuns s).l1 = s.length := by
  have := trailingRun_le (tailRuns s).first s
  rw [tailRuns_l1, tailRuns_d]
  omega

theorem tailRuns_l2_le (s : List Bit) : (tailRuns s).l2 ≤ (tailRuns s).d := by
  rw [tailRuns_l2]
  exact (trailingRun_le _ _).trans (by simp [tailRuns_d_le])

/-- The trailing run (R90). -/
theorem drop_tailRuns (s : List Bit) :
    s.drop (tailRuns s).d = List.replicate (tailRuns s).l1 (tailRuns s).first := by
  have h := take_append_trailingRun (tailRuns s).first s
  rw [← tailRuns_d, ← tailRuns_l1] at h
  have hl : (s.take (tailRuns s).d).length = (tailRuns s).d := by simp [tailRuns_d_le]
  have h2 := congrArg (List.drop (tailRuns s).d) h
  rw [List.drop_left' hl] at h2
  exact h2.symm

/-- What stands before the trailing run ends with the penultimate run (R90). -/
theorem take_tailRuns (s : List Bit) :
    s.take (tailRuns s).d = s.take ((tailRuns s).d - (tailRuns s).l2) ++
      List.replicate (tailRuns s).l2 (!(tailRuns s).first) := by
  have h := take_append_trailingRun (!(tailRuns s).first) (s.take (tailRuns s).d)
  have hl : (s.take (tailRuns s).d).length = (tailRuns s).d := by simp [tailRuns_d_le]
  rw [← tailRuns_l2, hl, List.take_take] at h
  rw [← h]
  congr 2
  omega

theorem last_take_tailRuns {s : List Bit} (h : 0 < (tailRuns s).d) :
    (s.take (tailRuns s).d).getLast? = some (!(tailRuns s).first) := by
  have hlt : trailingRun (tailRuns s).first s < s.length := by rw [tailRuns_d] at h; omega
  have := getElem?_before_trailingRun _ s hlt
  rw [← tailRuns_d] at this
  rw [List.getLast?_eq_getElem?, List.length_take, Nat.min_eq_left (tailRuns_d_le s),
    List.getElem?_take_of_lt (by omega), this]

theorem tailRuns_l2_pos {s : List Bit} (h : 0 < (tailRuns s).d) : 0 < (tailRuns s).l2 := by
  rw [tailRuns_l2]
  exact trailingRun_pos (last_take_tailRuns h)

/-- The parts determine the tail: a sequence that ends in a run of `b` of length `k > 0` after a part that
does not end in `b`. -/
theorem tailRuns_append_replicate {x : List Bit} {b : Bit} {k : Nat} (hk : 0 < k)
    (hx : x.getLast? ≠ some b) :
    tailRuns (x ++ List.replicate k b) =
      { first := b, d := x.length, l1 := k, l2 := trailingRun (!b) x } := by
  have hf : (tailRuns (x ++ List.replicate k b)).first = b := by
    have hne : x ++ List.replicate k b ≠ [] := by simp; omega
    have := tailRuns_first hne
    rw [List.getLast?_append, List.getLast?_replicate, if_neg (by omega)] at this
    simpa using this.symm
  have hr : trailingRun b (x ++ List.replicate k b) = k := by
    rw [trailingRun_append_replicate, trailingRun_of_last_ne hx]; omega
  have hd : (tailRuns (x ++ List.replicate k b)).d = x.length := by
    rw [tailRuns_d, hf, hr]; simp
  have h1 := tailRuns_l1 (x ++ List.replicate k b)
  have h2 := tailRuns_l2 (x ++ List.replicate k b)
  rw [hf, hr] at h1
  rw [hf, hd, List.take_left' rfl] at h2
  rcases ht : tailRuns (x ++ List.replicate k b) with ⟨f, d, l1, l2⟩
  rw [ht] at hf hd h1 h2
  simp_all

/-! ## Padding -/

theorem padBits_lt (l : Nat) {c : Nat} (hc : 0 < c) : padBits l c < c := Nat.mod_lt _ hc

/-- `padBits` makes the length a multiple of the chunk size (R91). -/
theorem add_padBits_mod (l : Nat) {c : Nat} (hc : 0 < c) : (l + padBits l c) % c = 0 := by
  have h := Nat.mod_lt l hc
  have e : (l + padBits l c) % c = (l % c + (c - l % c)) % c := by
    simp [padBits]
  rw [e, show l % c + (c - l % c) = c by omega, Nat.mod_self]

theorem padBits_of_mod {l c : Nat} (h : l % c = 0) : padBits l c = 0 := by simp [padBits, h]

/-- Bits added to the trailing run (R91). -/
def tailPad (s : List Bit) (c : Nat) : Nat := padBits (tailRuns s).l1 c

/-- Bits added to the penultimate run (R91). -/
def innerPad (s : List Bit) (c : Nat) : Nat :=
  if (tailRuns s).d = 0 then 0 else padBits (tailRuns s).l2 c

theorem tailPad_lt (s : List Bit) {c : Nat} (hc : 0 < c) : tailPad s c < c := padBits_lt _ hc

theorem innerPad_lt (s : List Bit) {c : Nat} (hc : 0 < c) : innerPad s c < c := by
  unfold innerPad
  split
  · exact hc
  · exact padBits_lt _ hc

@[simp] theorem padCore_nil (c : Nat) : padCore [] c = { out := [], zp := 0, op := 0 } := rfl

/-- The padded sequence of a sequence that is not empty, as its parts (R91, R93). -/
theorem padCore_out {s : List Bit} (hs : s ≠ []) (c : Nat) :
    (padCore s c).out =
      s.take ((tailRuns s).d - (tailRuns s).l2) ++
        List.replicate ((tailRuns s).l2 + innerPad s c) (!(tailRuns s).first) ++
        List.replicate ((tailRuns s).l1 + tailPad s c) (tailRuns s).first := by
  have hn : ¬ s.length = 0 := by simpa using hs
  simp only [padCore, if_neg hn]
  rw [drop_tailRuns, take_tailRuns s]
  simp only [innerPad, tailPad, List.append_assoc, List.replicate_add]

theorem padCore_zp {s : List Bit} (hs : s ≠ []) (c : Nat) :
    (padCore s c).zp = if (tailRuns s).first = false then tailPad s c else innerPad s c := by
  have hn : ¬ s.length = 0 := by simpa using hs
  simp [padCore, hn, tailPad, innerPad]

theorem padCore_op {s : List Bit} (hs : s ≠ []) (c : Nat) :
    (padCore s c).op = if (tailRuns s).first = false then innerPad s c else tailPad s c := by
  have hn : ¬ s.length = 0 := by simpa using hs
  simp [padCore, hn, tailPad, innerPad]

/-- The two counts are in range (R93 (b)). -/
theorem padCore_counts_lt (s : List Bit) {c : Nat} (hc : 0 < c) :
    (padCore s c).zp < c ∧ (padCore s c).op < c := by
  by_cases hs : s = []
  · simp [hs, hc]
  · rw [padCore_zp hs, padCore_op hs]
    have := tailPad_lt s hc
    have := innerPad_lt s hc
    split <;> constructor <;> assumption

/-- The padded length (R91, R93 (b)). -/
theorem padCore_length (s : List Bit) (c : Nat) :
    (padCore s c).out.length = s.length + (padCore s c).zp + (padCore s c).op := by
  by_cases hs : s = []
  · simp [hs]
  · rw [padCore_out hs, padCore_zp hs, padCore_op hs]
    have h1 := tailRuns_d_add_l1 s
    have h2 := tailRuns_l2_le s
    have h3 := tailRuns_d_le s
    simp only [List.length_append, List.length_take, List.length_replicate]
    split <;> omega

/-- The counts of zeros and of ones (R93 (d)). -/
theorem padCore_count (s : List Bit) (c : Nat) :
    (padCore s c).out.count false = s.count false + (padCore s c).zp ∧
    (padCore s c).out.count true = s.count true + (padCore s c).op := by
  by_cases hs : s = []
  · simp [hs]
  · have hsplit : s = s.take ((tailRuns s).d - (tailRuns s).l2) ++
        List.replicate (tailRuns s).l2 (!(tailRuns s).first) ++
        List.replicate (tailRuns s).l1 (tailRuns s).first := by
      rw [← take_tailRuns, ← drop_tailRuns, List.take_append_drop]
    have hf := congrArg (List.count false) hsplit
    have ht := congrArg (List.count true) hsplit
    rw [padCore_out hs, padCore_zp hs, padCore_op hs]
    generalize (tailRuns s).first = b at *
    cases b <;> simp [List.count_append, List.count_replicate] at hf ht ⊢ <;> omega

/-- Nothing before the diff index changes (R93 (d)). -/
theorem padCore_take {s : List Bit} (c : Nat) :
    (padCore s c).out.take (tailRuns s).d = s.take (tailRuns s).d := by
  by_cases hs : s = []
  · simp [hs]
  · have hn : ¬ s.length = 0 := by simpa using hs
    simp only [padCore, if_neg hn, List.append_assoc]
    exact List.take_left' (by simp [tailRuns_d_le])

/-- The tail runs of a padded sequence (R93 (c)). -/
theorem tailRuns_padCore {s : List Bit} (hs : s ≠ []) (c : Nat) :
    tailRuns (padCore s c).out =
      { first := (tailRuns s).first
        d := (tailRuns s).d + innerPad s c
        l1 := (tailRuns s).l1 + tailPad s c
        l2 := (tailRuns s).l2 + innerPad s c } := by
  have hl1 : 0 < (tailRuns s).l1 := by rw [tailRuns_l1]; exact trailingRun_pos (tailRuns_first hs)
  have h2 := tailRuns_l2_le s
  have h3 := tailRuns_d_le s
  rw [padCore_out hs]
  by_cases hd : (tailRuns s).d = 0
  · have hz : (tailRuns s).l2 = 0 := by omega
    have hi : innerPad s c = 0 := by simp [innerPad, hd]
    rw [hd, hz, hi]
    have := tailRuns_append_replicate (x := []) (b := (tailRuns s).first)
      (k := (tailRuns s).l1 + tailPad s c) (by omega) (by simp)
    simpa [trailingRun] using this
  · have hpos := tailRuns_l2_pos (Nat.pos_of_ne_zero hd)
    rw [tailRuns_append_replicate (by omega)]
    · have hlen : (s.take ((tailRuns s).d - (tailRuns s).l2)).length = (tailRuns s).d - (tailRuns s).l2 := by
        simp; omega
      have h0 : trailingRun (!(tailRuns s).first) (s.take ((tailRuns s).d - (tailRuns s).l2)) = 0 := by
        have h := tailRuns_l2 s
        rw [take_tailRuns s, trailingRun_append_replicate] at h
        omega
      simp only [trailingRun_append_replicate, h0, List.length_append, hlen, List.length_replicate,
        TailRuns.mk.injEq, true_and]
      omega
    · rw [List.getLast?_append, List.getLast?_replicate, if_neg (by omega)]
      cases (tailRuns s).first <;> simp

/-- Both tail runs of a padded sequence are multiples of the chunk size (R93 (c)). -/
theorem padCore_tail_mod {s : List Bit} (hs : s ≠ []) {c : Nat} (hc : 0 < c) :
    (tailRuns (padCore s c).out).l1 % c = 0 ∧ (tailRuns (padCore s c).out).l2 % c = 0 := by
  rw [tailRuns_padCore hs]
  refine ⟨add_padBits_mod _ hc, ?_⟩
  by_cases hd : (tailRuns s).d = 0
  · have := tailRuns_l2_le s
    simp [innerPad, hd, show (tailRuns s).l2 = 0 by omega]
  · simp only [innerPad, if_neg hd]
    exact add_padBits_mod _ hc

theorem padCore_ne_nil {s : List Bit} (hs : s ≠ []) (c : Nat) : (padCore s c).out ≠ [] := by
  intro h
  have := congrArg List.length h
  rw [padCore_length] at this
  have : 0 < s.length := List.length_pos_of_ne_nil hs
  simp only [List.length_nil] at *
  omega

/-- A second PAD changes nothing and reports no counts (R93 (e)). -/
theorem padCore_padCore (s : List Bit) {c : Nat} (hc : 0 < c) :
    padCore (padCore s c).out c = { out := (padCore s c).out, zp := 0, op := 0 } := by
  by_cases hs : s = []
  · simp [hs]
  · have hne := padCore_ne_nil hs c
    obtain ⟨m1, m2⟩ := padCore_tail_mod hs hc
    have ht : tailPad (padCore s c).out c = 0 := padBits_of_mod m1
    have hi : innerPad (padCore s c).out c = 0 := by
      unfold innerPad
      split
      · rfl
      · exact padBits_of_mod m2
    have hz : (padCore (padCore s c).out c).zp = 0 := by rw [padCore_zp hne, ht, hi]; simp
    have ho : (padCore (padCore s c).out c).op = 0 := by rw [padCore_op hne, ht, hi]; simp
    have hout : (padCore (padCore s c).out c).out = (padCore s c).out := by
      rw [padCore_out hne, ht, hi, Nat.add_zero, Nat.add_zero, ← take_tailRuns, ← drop_tailRuns,
        List.take_append_drop]
    rcases hp : padCore (padCore s c).out c with ⟨o, z, p⟩
    rw [hp] at hz ho hout
    simp_all

/-! ## Depadding -/

@[simp] theorem depadBackward_zero (l : List Bit) : depadBackward l 0 0 = l := by
  induction l with
  | nil => rfl
  | cons b l ih => simp [depadBackward, ih]

theorem depadBackward_remove_false (p : Nat) (l : List Bit) (o : Nat) :
    depadBackward (List.replicate p false ++ l) p o = depadBackward l 0 o := by
  induction p with
  | zero => simp
  | succ p ih => simp [List.replicate_succ, depadBackward, ih]

theorem depadBackward_remove_true (p : Nat) (l : List Bit) (z : Nat) :
    depadBackward (List.replicate p true ++ l) z p = depadBackward l z 0 := by
  induction p with
  | zero => simp
  | succ p ih => simp [List.replicate_succ, depadBackward, ih]

theorem depadBackward_keep_false (p : Nat) (l : List Bit) (o : Nat) :
    depadBackward (List.replicate p false ++ l) 0 o = List.replicate p false ++ depadBackward l 0 o := by
  induction p with
  | zero => simp
  | succ p ih => simp [List.replicate_succ, depadBackward, ih]

theorem depadBackward_keep_true (p : Nat) (l : List Bit) (z : Nat) :
    depadBackward (List.replicate p true ++ l) z 0 = List.replicate p true ++ depadBackward l z 0 := by
  induction p with
  | zero => simp
  | succ p ih => simp [List.replicate_succ, depadBackward, ih]

theorem depadBackward_length_le (l : List Bit) (z o : Nat) : (depadBackward l z o).length ≤ l.length := by
  induction l generalizing z o with
  | nil => simp [depadBackward]
  | cons b l ih =>
    simp only [depadBackward]
    split
    · exact (ih _ _).trans (by simp)
    · split
      · exact (ih _ _).trans (by simp)
      · simpa using ih _ _

/-- DEPAD never lengthens a sequence. -/
theorem depadCore_length_le (s : List Bit) (z o : Nat) : (depadCore s z o).length ≤ s.length := by
  simpa [depadCore] using depadBackward_length_le s.reverse z o

/-- Depadding undoes padding (R93 (a)): the two stages of the backward scan. -/
theorem depadCore_padCore (s : List Bit) (c : Nat) :
    depadCore (padCore s c).out (padCore s c).zp (padCore s c).op = s := by
  by_cases hs : s = []
  · simp [hs, depadCore]
  · have hsplit : s.take ((tailRuns s).d - (tailRuns s).l2) ++
        List.replicate (tailRuns s).l2 (!(tailRuns s).first) ++
        List.replicate (tailRuns s).l1 (tailRuns s).first = s := by
      rw [← take_tailRuns, ← drop_tailRuns, List.take_append_drop]
    conv_rhs => rw [← hsplit]
    rw [padCore_out hs, padCore_zp hs, padCore_op hs, depadCore]
    generalize s.take ((tailRuns s).d - (tailRuns s).l2) = x
    generalize (tailRuns s).first = b
    simp only [List.reverse_append, List.reverse_replicate, List.replicate_add, List.append_assoc]
    cases b
    · simp only [if_true, Bool.not_false]
      rw [depadBackward_remove_false, depadBackward_keep_false, depadBackward_remove_true,
        depadBackward_keep_true, depadBackward_zero]
      simp
    · simp only [Bool.true_eq_false, if_false, Bool.not_true]
      rw [depadBackward_remove_true, depadBackward_keep_true, depadBackward_remove_false,
        depadBackward_keep_false, depadBackward_zero]
      simp

end Sys2Proof.Machine
end

