-- ==== Sys2Proof/Laws/Completion.lean ====
section
/-! SUPPORT. Completion: what a commit and a fault leave, said once; the outcome of each command; and what every outcome fits. -/

namespace Sys2Proof.Machine

/-! ## Signed parameters -/

/-- A positive parameter is its unsigned value, below 2^31 (00_scope.md R6). -/
theorem signed32_pos {w : Word} (h : 0 < signed32 w) :
    signed32 w = (w.toNat : Int) ∧ 0 < w.toNat ∧ w.toNat < 2 ^ 31 := by
  have := w.isLt
  unfold signed32 at h ⊢
  split <;> split at h <;> omega

theorem signed32_toNat {w : Word} (h : 0 < signed32 w) : (signed32 w).toNat = w.toNat := by
  rw [(signed32_pos h).1, Int.toNat_natCast]

/-! ## Commit -/

theorem commit_bufCell_of_some {u : Updates} {bits : List Bit} (h : u.buf = some bits) (s : State) (k : Nat) :
    (s.commit u).bufCell k = (bits[k]?).getD (Config.freeBit (s.bufEpoch + 1) k) := by
  simp [State.bufCell, h]

theorem commit_sameBuf {u : Updates} (h : u.buf = none) (s : State) : SameBuf s (s.commit u) := by
  intro k
  simp [State.bufCell, h]

theorem commit_keyEntry_of_some {u : Updates} {ws : List Word} (h : u.key = some ws) (s : State) (k : Nat) :
    (s.commit u).keyEntry k = (ws[k]?).getD (Config.freeEntry (s.keyEpoch + 1) k) := by
  simp [State.keyEntry, h]

theorem commit_sameKey {u : Updates} (h : u.key = none) (s : State) : SameKey s (s.commit u) := by
  intro k
  simp [State.keyEntry, h]

/-- The working sequence after a commit that writes BUF, when LEN becomes (or is) its length. -/
theorem commit_bufSeq {u : Updates} {bits : List Bit} {s : State} (h : u.buf = some bits)
    (hl : (u.len.getD s.len).toNat = bits.length) : (s.commit u).bufSeq = bits := by
  apply bufSeq_eq_of_cells (by simpa using hl)
  intro k hk
  rw [commit_bufCell_of_some h, List.getElem?_eq_getElem hk]
  rfl

/-- The SwapKey after a commit that writes KEY with entries that fit a word. -/
theorem commit_keySeq {u : Updates} {ks : List Nat} {s : State} (h : u.key = some (ks.map toReg))
    (hl : u.klen = some (toReg ks.length)) (hlen : ks.length < 2 ^ 32) (hk : ∀ k ∈ ks, k < 2 ^ 32) :
    (s.commit u).keySeq = ks := by
  apply List.ext_getElem (by simp [hl, toReg_toNat hlen])
  intro r h1 h2
  simp [State.keySeq, commit_keyEntry_of_some h, h2, toReg_toNat (hk _ (List.getElem_mem h2))]

theorem keepsControl_commit (u : Updates) (s : State) : KeepsControl s (s.commit u) :=
  ⟨rfl, rfl, rfl, rfl, rfl, rfl, rfl, rfl, rfl, rfl, rfl, rfl⟩

/-- Everything a commit does to the control state (40_command_control.md R63). -/
theorem succeeded_commit (u : Updates) (s : State) : Succeeded s (s.commit u) :=
  ⟨rfl, rfl, rfl, rfl, rfl, keepsControl_commit u s⟩

/-! ## Faults -/

/-- Everything taking a fault does (60_exceptions.md R119). -/
theorem faulted_takeFault (c : Cause) (info : Word) (s : State) :
    Faulted c.code info s (s.takeFault c info) :=
  ⟨rfl, rfl, rfl, rfl, rfl, ⟨rfl, rfl, rfl, rfl, rfl, rfl, rfl, rfl, rfl, rfl, rfl, rfl⟩, rfl, rfl, rfl, rfl,
    fun _ => rfl, fun _ => rfl⟩

theorem Cause.code_range (c : Cause) : 1 ≤ c.code.toNat ∧ c.code.toNat ≤ 6 := by
  cases c <;> decide

@[simp] theorem complete_fault (c : Cause) (info : Word) (s : State) :
    s.complete (.fault c info) = s.takeFault c info := rfl

@[simp] theorem complete_success (u : Updates) (s : State) : s.complete (.success u) = s.commit u := rfl

/-! ## The outcome of each command -/

/-- The outcome of a command as a function of the state (40_command_control.md R62). -/
def resultOf : Instr → State → Result
  | .nop, _ => nopResult
  | .expand, s => expandResult s
  | .shrink, s => shrinkResult s
  | .permute, s => permuteResult s
  | .replay, s => replayResult s
  | .pad, s => padResult s
  | .depad, s => depadResult s
  | .group, s => groupResult s
  | .ungroup, s => ungroupResult s

/-- Every command is the completion with its outcome: everything `exec` can answer. -/
theorem exec_eq (i : Instr) (s : State) : exec i s = .next (s.complete (resultOf i s)) := by
  cases i <;> rfl

/-! Each outcome, case by case, in the order of the tests (60_exceptions.md R118). -/

theorem expandResult_nonpos {s : State} (h : signed32 s.exp ≤ 0) :
    expandResult s = .fault .expNonpos s.exp := if_pos h

theorem expandResult_capacity {s : State} (h : 0 < signed32 s.exp)
    (hc : s.cfg.nmax < s.len.toNat * (signed32 s.exp).toNat) :
    expandResult s = .fault .capacity (saturate32 (s.len.toNat * (signed32 s.exp).toNat)) := by
  rw [expandResult, if_neg (Int.not_le.2 h)]
  exact if_pos hc

theorem expandResult_success {s : State} (h : 0 < signed32 s.exp)
    (hc : s.len.toNat * (signed32 s.exp).toNat ≤ s.cfg.nmax) :
    expandResult s = .success {
      buf := some (expandSeq s.bufSeq (signed32 s.exp).toNat)
      len := some (toReg (s.len.toNat * (signed32 s.exp).toNat)) } := by
  rw [expandResult, if_neg (Int.not_le.2 h)]
  exact if_neg (Nat.not_lt.2 hc)

theorem shrinkResult_nonpos {s : State} (h : signed32 s.exp ≤ 0) :
    shrinkResult s = .fault .expNonpos s.exp := if_pos h

theorem shrinkResult_success {s : State} (h : 0 < signed32 s.exp) :
    shrinkResult s = .success {
      buf := some (shrinkSeq s.cfg.tieBit s.bufSeq (signed32 s.exp).toNat)
      len := some (toReg (ceilDiv s.len.toNat (signed32 s.exp).toNat)) } :=
  if_neg (Int.not_le.2 h)

theorem permuteResult_nonpos {s : State} (h : signed32 s.chunk ≤ 0) :
    permuteResult s = .fault .chunkNonpos s.chunk := if_pos h

theorem permuteResult_success {s : State} (h : 0 < signed32 s.chunk) :
    permuteResult s = .success {
      buf := some (permuteCore s.bufSeq (signed32 s.chunk).toNat).1
      key := some ((permuteCore s.bufSeq (signed32 s.chunk).toNat).2.map toReg)
      klen := some (toReg (permuteCore s.bufSeq (signed32 s.chunk).toNat).2.length) } :=
  if_neg (Int.not_le.2 h)

theorem replayResult_nonpos {s : State} (h : signed32 s.chunk ≤ 0) :
    replayResult s = .fault .chunkNonpos s.chunk := if_pos h

theorem replayResult_malformed {s : State} (h : 0 < signed32 s.chunk)
    (hk : keyWellFormed s.keySeq s.len.toNat = false) :
    replayResult s = .fault .keyMalformed (toReg (badEntry s.keySeq s.len.toNat)) := by
  rw [replayResult, if_neg (Int.not_le.2 h)]
  exact if_pos hk

theorem replayResult_success {s : State} (h : 0 < signed32 s.chunk)
    (hk : keyWellFormed s.keySeq s.len.toNat = true) :
    replayResult s = .success { buf := some (replayCore s.bufSeq s.keySeq (signed32 s.chunk).toNat) } := by
  rw [replayResult, if_neg (Int.not_le.2 h)]
  exact if_neg (by simp [hk])

theorem padResult_nonpos {s : State} (h : signed32 s.chunk ≤ 0) :
    padResult s = .fault .chunkNonpos s.chunk := if_pos h

theorem padResult_capacity {s : State} (h : 0 < signed32 s.chunk)
    (hc : s.cfg.nmax < (padCore s.bufSeq (signed32 s.chunk).toNat).out.length) :
    padResult s = .fault .capacity
      (saturate32 (padCore s.bufSeq (signed32 s.chunk).toNat).out.length) := by
  rw [padResult, if_neg (Int.not_le.2 h)]
  exact if_pos hc

theorem padResult_success {s : State} (h : 0 < signed32 s.chunk)
    (hc : (padCore s.bufSeq (signed32 s.chunk).toNat).out.length ≤ s.cfg.nmax) :
    padResult s = .success {
      buf := some (padCore s.bufSeq (signed32 s.chunk).toNat).out
      len := some (toReg (padCore s.bufSeq (signed32 s.chunk).toNat).out.length)
      zpad := some (toReg (padCore s.bufSeq (signed32 s.chunk).toNat).zp)
      opad := some (toReg (padCore s.bufSeq (signed32 s.chunk).toNat).op) } := by
  rw [padResult, if_neg (Int.not_le.2 h)]
  exact if_neg (Nat.not_lt.2 hc)

theorem depadResult_nonpos {s : State} (h : signed32 s.chunk ≤ 0) :
    depadResult s = .fault .chunkNonpos s.chunk := if_pos h

theorem depadResult_zpad {s : State} (h : 0 < signed32 s.chunk) (hz : signed32 s.chunk ≤ s.zpad.toNat) :
    depadResult s = .fault .padRange 0 := by
  rw [depadResult, if_neg (Int.not_le.2 h)]
  exact if_pos hz

theorem depadResult_opad {s : State} (h : 0 < signed32 s.chunk) (hz : s.zpad.toNat < signed32 s.chunk)
    (ho : signed32 s.chunk ≤ s.opad.toNat) : depadResult s = .fault .padRange 1 := by
  rw [depadResult, if_neg (Int.not_le.2 h), if_neg (Int.not_le.2 hz)]
  exact if_pos ho

theorem depadResult_success {s : State} (h : 0 < signed32 s.chunk) (hz : s.zpad.toNat < signed32 s.chunk)
    (ho : s.opad.toNat < signed32 s.chunk) :
    depadResult s = .success {
      buf := some (depadCore s.bufSeq s.zpad.toNat s.opad.toNat)
      len := some (toReg (depadCore s.bufSeq s.zpad.toNat s.opad.toNat).length) } := by
  rw [depadResult, if_neg (Int.not_le.2 h), if_neg (Int.not_le.2 hz), if_neg (Int.not_le.2 ho)]

theorem groupResult_nonpos {s : State} (h : signed32 s.chunk ≤ 0) :
    groupResult s = .fault .chunkNonpos s.chunk := if_pos h

theorem groupResult_capacity {s : State} (h : 0 < signed32 s.chunk)
    (hc : s.cfg.nmax < (padCore (permuteCore s.bufSeq (signed32 s.chunk).toNat).1
      (signed32 s.chunk).toNat).out.length) :
    groupResult s = .fault .capacity (saturate32
      (padCore (permuteCore s.bufSeq (signed32 s.chunk).toNat).1 (signed32 s.chunk).toNat).out.length) := by
  rw [groupResult, if_neg (Int.not_le.2 h)]
  exact if_pos hc

theorem groupResult_success {s : State} (h : 0 < signed32 s.chunk)
    (hc : (padCore (permuteCore s.bufSeq (signed32 s.chunk).toNat).1
      (signed32 s.chunk).toNat).out.length ≤ s.cfg.nmax) :
    groupResult s = .success {
      buf := some (padCore (permuteCore s.bufSeq (signed32 s.chunk).toNat).1 (signed32 s.chunk).toNat).out
      len := some (toReg
        (padCore (permuteCore s.bufSeq (signed32 s.chunk).toNat).1 (signed32 s.chunk).toNat).out.length)
      key := some ((permuteCore s.bufSeq (signed32 s.chunk).toNat).2.map toReg)
      klen := some (toReg (permuteCore s.bufSeq (signed32 s.chunk).toNat).2.length)
      zpad := some (toReg
        (padCore (permuteCore s.bufSeq (signed32 s.chunk).toNat).1 (signed32 s.chunk).toNat).zp)
      opad := some (toReg
        (padCore (permuteCore s.bufSeq (signed32 s.chunk).toNat).1 (signed32 s.chunk).toNat).op) } := by
  rw [groupResult, if_neg (Int.not_le.2 h)]
  exact if_neg (Nat.not_lt.2 hc)

theorem ungroupResult_nonpos {s : State} (h : signed32 s.chunk ≤ 0) :
    ungroupResult s = .fault .chunkNonpos s.chunk := if_pos h

theorem ungroupResult_zpad {s : State} (h : 0 < signed32 s.chunk) (hz : signed32 s.chunk ≤ s.zpad.toNat) :
    ungroupResult s = .fault .padRange 0 := by
  rw [ungroupResult, if_neg (Int.not_le.2 h)]
  exact if_pos hz

theorem ungroupResult_opad {s : State} (h : 0 < signed32 s.chunk) (hz : s.zpad.toNat < signed32 s.chunk)
    (ho : signed32 s.chunk ≤ s.opad.toNat) : ungroupResult s = .fault .padRange 1 := by
  rw [ungroupResult, if_neg (Int.not_le.2 h), if_neg (Int.not_le.2 hz)]
  exact if_pos ho

theorem ungroupResult_malformed {s : State} (h : 0 < signed32 s.chunk) (hz : s.zpad.toNat < signed32 s.chunk)
    (ho : s.opad.toNat < signed32 s.chunk)
    (hk : keyWellFormed s.keySeq (depadCore s.bufSeq s.zpad.toNat s.opad.toNat).length = false) :
    ungroupResult s = .fault .keyMalformed
      (toReg (badEntry s.keySeq (depadCore s.bufSeq s.zpad.toNat s.opad.toNat).length)) := by
  rw [ungroupResult, if_neg (Int.not_le.2 h), if_neg (Int.not_le.2 hz), if_neg (Int.not_le.2 ho)]
  exact if_pos hk

theorem ungroupResult_success {s : State} (h : 0 < signed32 s.chunk) (hz : s.zpad.toNat < signed32 s.chunk)
    (ho : s.opad.toNat < signed32 s.chunk)
    (hk : keyWellFormed s.keySeq (depadCore s.bufSeq s.zpad.toNat s.opad.toNat).length = true) :
    ungroupResult s = .success {
      buf := some (replayCore (depadCore s.bufSeq s.zpad.toNat s.opad.toNat) s.keySeq
        (signed32 s.chunk).toNat)
      len := some (toReg (depadCore s.bufSeq s.zpad.toNat s.opad.toNat).length) } := by
  rw [ungroupResult, if_neg (Int.not_le.2 h), if_neg (Int.not_le.2 hz), if_neg (Int.not_le.2 ho)]
  exact if_neg (by simp [hk])

/-! ## What every outcome fits -/

/-- The updates fit the buffers of `s`: a new sequence is at most NMAX bits and LEN is its length, a new
key is at most NMAX entries and KLEN is its length; LEN and KLEN are not written alone. -/
structure Fits (s : State) (u : Updates) : Prop where
  buf : ∀ bits, u.buf = some bits → bits.length ≤ s.cfg.nmax ∧ (u.len.getD s.len).toNat = bits.length
  len : u.buf = none → u.len = none
  key : ∀ ws, u.key = some ws → ws.length ≤ s.cfg.nmax ∧ u.klen = some (toReg ws.length)
  klen : u.key = none → u.klen = none

/-- Every success of every command fits (10_state.md R26, clause 1). -/
theorem fits_of_success {i : Instr} {s : State} {u : Updates} (hc : s.cfg.Legal)
    (hl : s.len.toNat ≤ s.cfg.nmax) (h : resultOf i s = .success u) : Fits s u := by
  obtain ⟨h1, h2⟩ := hc
  have reg : ∀ n, n ≤ s.cfg.nmax → (toReg n).toNat = n := fun n hn => toReg_toNat (by omega)
  have hkey : ∀ c, (permuteCore s.bufSeq c).2.length ≤ s.cfg.nmax := by
    intro c
    have := permuteCore_key_bound s.bufSeq c
    rw [bufSeq_length] at this
    omega
  cases i with
  | nop =>
    simp only [resultOf, nopResult, Result.success.injEq] at h
    subst h
    constructor <;> simp
  | expand =>
    simp only [resultOf] at h
    by_cases he : signed32 s.exp ≤ 0
    · rw [expandResult_nonpos he] at h; simp at h
    · by_cases hn : s.len.toNat * (signed32 s.exp).toNat ≤ s.cfg.nmax
      · rw [expandResult_success (by omega) hn, Result.success.injEq] at h
        subst h
        constructor <;> simp [hn, reg _ hn]
      · rw [expandResult_capacity (by omega) (by omega)] at h; simp at h
  | shrink =>
    simp only [resultOf] at h
    by_cases he : signed32 s.exp ≤ 0
    · rw [shrinkResult_nonpos he] at h; simp at h
    · rw [shrinkResult_success (by omega), Result.success.injEq] at h
      subst h
      have hn := (ceilDiv_le_self s.len.toNat (e := (signed32 s.exp).toNat) (by omega)).trans hl
      constructor <;> simp [hn, reg _ hn]
  | permute =>
    simp only [resultOf] at h
    by_cases he : signed32 s.chunk ≤ 0
    · rw [permuteResult_nonpos he] at h; simp at h
    · rw [permuteResult_success (by omega), Result.success.injEq] at h
      subst h
      constructor <;> simp [hl, hkey]
  | replay =>
    simp only [resultOf] at h
    by_cases he : signed32 s.chunk ≤ 0
    · rw [replayResult_nonpos he] at h; simp at h
    · cases hk : keyWellFormed s.keySeq s.len.toNat with
      | false => rw [replayResult_malformed (by omega) hk] at h; simp at h
      | true =>
        rw [replayResult_success (by omega) hk, Result.success.injEq] at h
        subst h
        constructor <;> simp [hl]
  | pad =>
    simp only [resultOf] at h
    by_cases he : signed32 s.chunk ≤ 0
    · rw [padResult_nonpos he] at h; simp at h
    · by_cases hn : (padCore s.bufSeq (signed32 s.chunk).toNat).out.length ≤ s.cfg.nmax
      · rw [padResult_success (by omega) hn, Result.success.injEq] at h
        subst h
        constructor <;> simp [hn, reg _ hn]
      · rw [padResult_capacity (by omega) (by omega)] at h; simp at h
  | depad =>
    simp only [resultOf] at h
    by_cases he : signed32 s.chunk ≤ 0
    · rw [depadResult_nonpos he] at h; simp at h
    · by_cases hz : signed32 s.chunk ≤ s.zpad.toNat
      · rw [depadResult_zpad (by omega) hz] at h; simp at h
      · by_cases ho : signed32 s.chunk ≤ s.opad.toNat
        · rw [depadResult_opad (by omega) (by omega) ho] at h; simp at h
        · rw [depadResult_success (by omega) (by omega) (by omega), Result.success.injEq] at h
          subst h
          have hn := (depadCore_length_le s.bufSeq s.zpad.toNat s.opad.toNat).trans (by simpa using hl)
          constructor <;> simp [hn, reg _ hn]
  | group =>
    simp only [resultOf] at h
    by_cases he : signed32 s.chunk ≤ 0
    · rw [groupResult_nonpos he] at h; simp at h
    · by_cases hn : (padCore (permuteCore s.bufSeq (signed32 s.chunk).toNat).1
        (signed32 s.chunk).toNat).out.length ≤ s.cfg.nmax
      · rw [groupResult_success (by omega) hn, Result.success.injEq] at h
        subst h
        constructor <;> simp [hn, reg _ hn, hkey]
      · rw [groupResult_capacity (by omega) (by omega)] at h; simp at h
  | ungroup =>
    simp only [resultOf] at h
    by_cases he : signed32 s.chunk ≤ 0
    · rw [ungroupResult_nonpos he] at h; simp at h
    · by_cases hz : signed32 s.chunk ≤ s.zpad.toNat
      · rw [ungroupResult_zpad (by omega) hz] at h; simp at h
      · by_cases ho : signed32 s.chunk ≤ s.opad.toNat
        · rw [ungroupResult_opad (by omega) (by omega) ho] at h; simp at h
        · cases hk : keyWellFormed s.keySeq (depadCore s.bufSeq s.zpad.toNat s.opad.toNat).length with
          | false => rw [ungroupResult_malformed (by omega) (by omega) (by omega) hk] at h; simp at h
          | true =>
            rw [ungroupResult_success (by omega) (by omega) (by omega) hk, Result.success.injEq] at h
            subst h
            have hn := (depadCore_length_le s.bufSeq s.zpad.toNat s.opad.toNat).trans (by simpa using hl)
            constructor <;> simp [hn, reg _ hn]

/-- The control state after any completion: everything a completion can do to it. -/
theorem complete_cases (r : Result) (s : State) :
    (∃ u, r = .success u ∧ Succeeded s (s.complete r)) ∨
    (∃ c info, r = .fault c info ∧ Faulted c.code info s (s.complete r)) := by
  cases r with
  | fault c info => exact Or.inr ⟨c, info, rfl, faulted_takeFault c info s⟩
  | success u => exact Or.inl ⟨u, rfl, succeeded_commit u s⟩

end Sys2Proof.Machine
end

