-- ==== Sys2Proof/Laws/Decode.lean ====
section
/-! SUPPORT. The decoder by ranges of its two fields. -/

namespace Sys2Proof

theorem rsvField_toNat (w : Word) : (rsvField w).toNat = w.toNat / 2 ^ 8 := by
  have := w.isLt
  simp only [rsvField, BitVec.extractLsb'_toNat, Nat.shiftRight_eq_div_pow]
  omega

theorem opcField_toNat (w : Word) : (opcField w).toNat = w.toNat % 2 ^ 8 := by simp [opcField]

theorem rsvField_eq_zero (w : Word) : rsvField w = 0 ↔ w.toNat < 2 ^ 8 := by
  rw [← BitVec.toNat_inj, rsvField_toNat]
  simp

/-- An opcode up to 0x08 is the command with that word (30_encoding.md R51). -/
theorem decodeOpc_command (n : Nat) (i : Instr) : decodeOpc n = .command i ↔ n = (encode i).toNat := by
  unfold decodeOpc
  split <;> cases i <;> simp_all [encode]

/-- An opcode above 0x08 is reserved (30_encoding.md R52). -/
theorem decodeOpc_illegal (n : Nat) : (∃ why, decodeOpc n = .illegal why) ↔ 8 < n := by
  unfold decodeOpc
  split
  case h_10 h0 h1 h2 h3 h4 h5 h6 h7 h8 =>
    simp only [Decoded.illegal.injEq, exists_eq', true_iff]
    by_contra hn
    interval_cases n <;> simp_all
  all_goals simp

end Sys2Proof
end

