-- ==== Sys2Proof/Laws/HostBus.lean ====
section
/-! SUPPORT. Host transactions: the register map, and everything a transaction can do to the state, said once. -/

namespace Sys2Proof.Machine

/-- The map answers each register's own offset. -/
@[simp] theorem regAt_offset (r : Reg) : regAt r.offset = some r := by cases r <;> rfl

@[simp] theorem selectReg_offset (r : Reg) : selectReg r.offset 4 = some r := by cases r <;> rfl

/-- Only the register's own offset reaches it (20_memory.md R31). -/
theorem offset_of_selectReg {off : Offset} {size : Nat} {r : Reg} (h : selectReg off size = some r) :
    off = r.offset ∧ size = 4 := by
  unfold selectReg at h
  split at h
  · simp at h
  · rename_i hn
    have hs : size = 4 := by omega
    refine ⟨?_, hs⟩
    apply BitVec.eq_of_toNat_eq
    unfold regAt at h
    split at h <;> rename_i he <;> first
      | (cases h; exact he)
      | exact absurd h (by simp)

/-- Misaligned, not 4 bytes wide, or at 0x48 or above: no register (20_memory.md R32). -/
theorem selectReg_none {off : Offset} {size : Nat}
    (h : off.toNat % 4 ≠ 0 ∨ size ≠ 4 ∨ 0x48 ≤ off.toNat) : selectReg off size = none := if_pos h

/-- Everything a host transaction can do to the state, with what must hold for it (20_memory.md R33 to R38,
40_command_control.md R60). -/
inductive HostEffect (s : State) : State → Prop
  | same : HostEffect s s
  | advanceBidx (h : s.busy = false) : HostEffect s s.advanceBidx
  | advanceKidx (h : s.busy = false) : HostEffect s s.advanceKidx
  | ctrl (v : Word) : HostEffect s (s.writeCtrl v)
  | status (v : Word) : HostEffect s (s.writeStatus v)
  | accept (w : Word) (h : s.busy = false) (he : s.err = false) : HostEffect s (s.accept w)
  | chunk (v : Word) (h : s.busy = false) : HostEffect s { s with chunk := v }
  | exp (v : Word) (h : s.busy = false) : HostEffect s { s with exp := v }
  | zpad (v : Word) (h : s.busy = false) : HostEffect s { s with zpad := v }
  | opad (v : Word) (h : s.busy = false) : HostEffect s { s with opad := v }
  | len (v : Word) (h : s.busy = false) (hv : v.toNat ≤ s.cfg.nmax) : HostEffect s { s with len := v }
  | klen (v : Word) (h : s.busy = false) (hv : v.toNat ≤ s.cfg.nmax) : HostEffect s { s with klen := v }
  | bidx (v : Word) (h : s.busy = false) : HostEffect s { s with bidx := v }
  | kidx (v : Word) (h : s.busy = false) : HostEffect s { s with kidx := v }
  | bufCell (b : Bit) (h : s.busy = false) (hk : s.bidx.toNat < s.cfg.nmax) :
      HostEffect s (s.writeBufCell s.bidx.toNat b).advanceBidx
  | keyEntry (v : Word) (h : s.busy = false) (hk : s.kidx.toNat < s.cfg.nmax) :
      HostEffect s (s.writeKeyEntry s.kidx.toNat v).advanceKidx

theorem readReg_effect (r : Reg) {s : State} (h : s.busy = false ∨ r.isOperand = false) :
    HostEffect s (readReg r s).1 := by
  cases r <;> first
    | exact .same
    | simp only [Reg.isOperand, Bool.true_eq_false, or_false] at h
      simp only [readReg]
      split
      · exact .same
      · first
        | exact .advanceBidx h
        | exact .advanceKidx h

theorem writeReg_effect (r : Reg) (v : Word) {s : State} (h : s.busy = false ∨ r.isOperand = false) :
    HostEffect s (writeReg r v s).1 := by
  have idle : r.isOperand = true → s.busy = false := by intro ho; simpa [ho] using h
  cases r with
  | ctrl => exact .ctrl v
  | status => exact .status v
  | cmd =>
    simp only [writeReg, writeCmd]
    split
    · exact .same
    · rename_i hn
      simp only [Bool.or_eq_true, not_or, Bool.not_eq_true] at hn
      exact .accept v hn.1 hn.2
  | chunk => exact .chunk v (idle rfl)
  | exp => exact .exp v (idle rfl)
  | zpad => exact .zpad v (idle rfl)
  | opad => exact .opad v (idle rfl)
  | len =>
    simp only [writeReg]
    split
    · exact .same
    · exact .len v (idle rfl) (by omega)
  | klen =>
    simp only [writeReg]
    split
    · exact .same
    · exact .klen v (idle rfl) (by omega)
  | bidx => exact .bidx v (idle rfl)
  | kidx => exact .kidx v (idle rfl)
  | bdata =>
    simp only [writeReg]
    split
    · exact .same
    · exact .bufCell _ (idle rfl) (by omega)
  | kdata =>
    simp only [writeReg]
    split
    · exact .same
    · exact .keyEntry _ (idle rfl) (by omega)
  | _ => exact .same

/-- One of the listed effects is what any transaction does. -/
theorem transact_effect (x : Transaction) (s : State) : HostEffect s (transact x s).1 := by
  cases x with
  | read off size =>
    simp only [transact, hostRead]
    split
    · exact .same
    · rename_i r _
      split
      · exact .same
      · rename_i hb
        exact readReg_effect r (by cases hs : s.busy <;> simp_all)
  | write off size v =>
    simp only [transact, hostWrite]
    split
    · exact .same
    · rename_i r _
      split
      · exact .same
      · rename_i hb
        exact writeReg_effect r v (by cases hs : s.busy <;> simp_all)

/-! ## One register at a time -/

/-- A read of a register that is no operand, or of an idle core. -/
theorem hostRead_reg (r : Reg) {s : State} (h : (s.busy && r.isOperand) = false) :
    hostRead r.offset 4 s = readReg r s := by
  simp [hostRead, h]

/-- A write of a register that is no operand, or of an idle core. -/
theorem hostWrite_reg (r : Reg) (v : Word) {s : State} (h : (s.busy && r.isOperand) = false) :
    hostWrite r.offset 4 v s = writeReg r v s := by
  simp [hostWrite, h]

/-- The BUSY lock on an operand register (20_memory.md R33). -/
theorem hostRead_locked {r : Reg} {s : State} (h : s.busy = true) (ho : r.isOperand = true) :
    hostRead r.offset 4 s = (s, .busError) := by
  simp [hostRead, h, ho]

/-- The BUSY lock on an operand register (20_memory.md R33). -/
theorem hostWrite_locked {r : Reg} (v : Word) {s : State} (h : s.busy = true) (ho : r.isOperand = true) :
    hostWrite r.offset 4 v s = (s, .busError) := by
  simp [hostWrite, h, ho]

/-! ## What no transaction touches -/

/-- The fields that only the core, or nobody, changes; the host's script and record are kept by
`performLine`, not by a transaction. -/
theorem HostEffect.keeps {s t : State} (h : HostEffect s t) :
    t.cfg = s.cfg ∧ t.script = s.script ∧ t.log = s.log ∧ t.bufEpoch = s.bufEpoch ∧
      t.keyEpoch = s.keyEpoch := by
  cases h with
  | status v =>
    simp only [State.writeStatus]
    split <;> split <;> exact ⟨rfl, rfl, rfl, rfl, rfl⟩
  | _ => exact ⟨rfl, rfl, rfl, rfl, rfl⟩

/-- While the core is busy a transaction neither ends nor delays the running command (20_memory.md R33). -/
theorem HostEffect.busy {s t : State} (h : HostEffect s t) (hb : s.busy = true) :
    t.busy = true ∧ t.delay = s.delay ∧ t.cmd = s.cmd := by
  cases h with
  | status v =>
    simp only [State.writeStatus]
    split <;> split <;> exact ⟨hb, rfl, rfl⟩
  | same => exact ⟨hb, rfl, rfl⟩
  | ctrl v => exact ⟨hb, rfl, rfl⟩
  | _ => simp_all

/-! ## A write to STATUS -/

section
variable (v : Word) (s : State)

/-- Everything a write to STATUS does, field by field (10_state.md R20, 60_exceptions.md R120). -/
theorem writeStatus_eq : s.writeStatus v = { s with
    done := s.done && !v.getLsbD 1
    err := s.err && !v.getLsbD 2
    errcode := if v.getLsbD 2 then 0 else s.errcode
    errinfo := if v.getLsbD 2 then 0 else s.errinfo } := by
  unfold State.writeStatus wordBit
  generalize v.getLsbD 1 = a
  generalize v.getLsbD 2 = b
  cases a <;> cases b <;> simp [State.clearDone, State.acknowledge]

end

end Sys2Proof.Machine
end

