-- ==== Sys2Proof/Laws/PerInstr.lean ====
section
/-! SUPPORT. Families of lemmas, one per command. -/

namespace Sys2Proof.Laws.RoundTrip

/-- The word of a command decodes to it, and is a table row's 32-bit word (30_encoding.md R51). -/
def Statement (i : Instr) : Prop :=
  decode (encode i) = .command i ∧ decodeTableWord 32 (encode i).toNat = some i

theorem nop : Statement .nop := ⟨rfl, rfl⟩
theorem expand : Statement .expand := ⟨rfl, rfl⟩
theorem shrink : Statement .shrink := ⟨rfl, rfl⟩
theorem permute : Statement .permute := ⟨rfl, rfl⟩
theorem replay : Statement .replay := ⟨rfl, rfl⟩
theorem pad : Statement .pad := ⟨rfl, rfl⟩
theorem depad : Statement .depad := ⟨rfl, rfl⟩
theorem group : Statement .group := ⟨rfl, rfl⟩
theorem ungroup : Statement .ungroup := ⟨rfl, rfl⟩

end Sys2Proof.Laws.RoundTrip
end

