-- ==== Sys2Proof/Laws/Step.lean ====
section
/-! SUPPORT. The step: everything a step can do, said once; and that the invariants hold at reset and are kept. -/

namespace Sys2Proof.Machine

/-- What the core's completion answers. -/
theorem completeCommand_eq (s : State) :
    ∃ r : Result, completeCommand s = .next (s.complete r) ∧
      ((∃ i, decode s.cmd = .command i ∧ r = resultOf i s) ∨
       (∃ why, decode s.cmd = .illegal why ∧ r = .fault .illegalCmd s.cmd)) := by
  unfold completeCommand
  cases hd : decode s.cmd with
  | command i => exact ⟨resultOf i s, exec_eq i s, Or.inl ⟨i, rfl, rfl⟩⟩
  | illegal why => exact ⟨_, rfl, Or.inr ⟨why, rfl, rfl⟩⟩

/-- What performing a line does: `rst`, or one transaction and its reply. -/
theorem performLine_cases (l : Line) (s : State) :
    (l.first = none ∧ performLine l s = s.assertReset) ∨
    (∃ x, l.first = some x ∧ performLine l s =
      { (transact x s.tick).1 with
        script := l.rest (transact x s.tick).2 ++ s.script
        log := (x, (transact x s.tick).2) :: s.log }) := by
  unfold performLine
  cases hf : l.first with
  | none => exact Or.inl ⟨rfl, rfl⟩
  | some x =>
    obtain ⟨-, hs, hl, -⟩ := (transact_effect x s.tick).keeps
    exact Or.inr ⟨x, rfl, by simp [hs, hl]⟩

/-- Everything a step can do. -/
theorem step_cases (s : State) :
    (s.completesNow = true ∧ ∃ r : Result, step s = .next (s.complete r) ∧
      ((∃ i, decode s.cmd = .command i ∧ r = resultOf i s) ∨
       (∃ why, decode s.cmd = .illegal why ∧ r = .fault .illegalCmd s.cmd))) ∨
    (s.completesNow = false ∧ s.script = [] ∧ step s = .next s) ∨
    (s.completesNow = false ∧ ∃ l ls, s.script = l :: ls ∧
      step s = .next (performLine l { s with script := ls })) := by
  cases hc : s.completesNow with
  | true =>
    refine Or.inl ⟨rfl, ?_⟩
    rw [step, hc, if_pos rfl]
    exact completeCommand_eq s
  | false =>
    refine Or.inr ?_
    rw [step, hc, if_neg (by simp)]
    cases hs : s.script with
    | nil => exact Or.inl ⟨rfl, rfl, rfl⟩
    | cons l ls => exact Or.inr ⟨rfl, l, ls, rfl, rfl⟩

theorem completesNow_busy {s : State} (h : s.completesNow = true) : s.busy = true := by
  simp only [State.completesNow, Bool.and_eq_true] at h
  exact h.1

/-! ## The register invariants -/

theorem zextBit_lt (b : Bit) : (zextBit b).toNat < 2 := by cases b <;> decide

/-- Reserved bits read as zero in every state (10_state.md R26, clause 5). -/
theorem reserved_zero (s : State) :
    s.statusWord >>> 3 = 0 ∧ s.ctrlWord >>> 2 = 0 ∧ s.errcodeWord >>> 8 = 0 := by
  refine ⟨?_, ?_, ?_⟩
  · unfold State.statusWord
    cases s.busy <;> cases s.done <;> cases s.err <;> decide
  · unfold State.ctrlWord
    cases s.ie <;> cases s.ainc <;> decide
  · apply BitVec.eq_of_toNat_eq
    have := s.errcode.isLt
    simp [State.errcodeWord, Nat.shiftRight_eq_div_pow]
    omega

/-- The register invariants without their clause 5, which every state meets. -/
theorem registerInv_of {s : State} (h1 : s.len.toNat ≤ s.cfg.nmax) (h2 : s.klen.toNat ≤ s.cfg.nmax)
    (h3 : s.busy = true → s.done = false ∧ s.err = false)
    (h4 : s.err = false → s.errcode = 0 ∧ s.errinfo = 0)
    (h5 : s.err = true → 1 ≤ s.errcode.toNat ∧ s.errcode.toNat ≤ 6)
    (h6 : ¬(s.done = true ∧ s.err = true)) : RegisterInv s :=
  ⟨h1, h2, h3, h4, h5, h6, (reserved_zero s).1, (reserved_zero s).2.1, (reserved_zero s).2.2⟩

theorem registerInv_reset : RegisterInv State.reset := by
  apply registerInv_of <;> decide

theorem legal_thisHardware : Config.thisHardware.Legal := by decide

theorem memoryInv_reset : MemoryInv State.reset := ⟨rfl, rfl⟩

theorem registerInv_assertReset {s : State} : RegisterInv s.assertReset := by
  apply registerInv_of <;> simp

/-- A success that fits keeps the register invariants of a busy core. -/
theorem registerInv_commit {s : State} {u : Updates} (h : RegisterInv s) (hf : Fits s u)
    (hc : s.cfg.Legal) (hb : s.busy = true) : RegisterInv (s.commit u) := by
  have he := (h.busy_clear hb).2
  apply registerInv_of
  · rcases hu : u.buf with _ | bits
    · simpa [hf.len hu] using h.len_le
    · have := hf.buf bits hu
      simp only [commit_len, commit_cfg]
      omega
  · rcases hu : u.key with _ | ws
    · simpa [hf.klen hu] using h.klen_le
    · obtain ⟨g1, g2⟩ := hf.key ws hu
      have := hc.2
      simp only [commit_klen, commit_cfg, g2, Option.getD_some]
      rw [toReg_toNat (by omega)]
      exact g1
  · simp
  · simpa using h.no_err
  · simp [he]
  · simp [he]

theorem registerInv_takeFault {s : State} (c : Cause) (info : Word) (h : RegisterInv s)
    (hb : s.busy = true) : RegisterInv (s.takeFault c info) := by
  have hd := (h.busy_clear hb).1
  apply registerInv_of
  · simpa using h.len_le
  · simpa using h.klen_le
  · simp
  · simp
  · simpa using c.code_range
  · simp [hd]

/-- Every host transaction keeps the register invariants. -/
theorem registerInv_hostEffect {s t : State} (h : RegisterInv s) (ht : HostEffect s t) : RegisterInv t := by
  obtain ⟨h1, h2, h3, h4, h5, h6, -, -, -⟩ := h
  cases ht with
  | status v =>
    rw [writeStatus_eq]
    cases hv1 : v.getLsbD 1 <;> cases hv2 : v.getLsbD 2 <;> apply registerInv_of <;> simp_all
  | accept w hb he => apply registerInv_of <;> simp_all
  | len v hb hv => exact registerInv_of hv h2 h3 h4 h5 h6
  | klen v hb hv => exact registerInv_of h1 hv h3 h4 h5 h6
  | _ => exact registerInv_of h1 h2 h3 h4 h5 h6

/-- The register invariants do not look at the model's own fields. -/
theorem registerInv_own {s : State} (h : RegisterInv s) (d : Nat) (sc : List Line)
    (lg : List (Transaction × Reply)) : RegisterInv { s with delay := d, script := sc, log := lg } :=
  registerInv_of h.len_le h.klen_le h.busy_clear h.no_err h.err_code h.not_both

/-! ## Canonical memories -/

theorem memoryInv_commit {s : State} {u : Updates} (h : MemoryInv s) (hf : Fits s u) :
    MemoryInv (s.commit u) := by
  constructor
  · rcases hu : u.buf with _ | bits
    · simpa [hu] using h.buf_wf
    · simpa [hu] using Memory.wf_ofList bits (hf.buf bits hu).1
  · rcases hu : u.key with _ | ws
    · simpa [hu] using h.key_wf
    · simpa [hu] using Memory.wf_ofList ws (hf.key ws hu).1

/-- Every host transaction keeps both memories canonical. -/
theorem memoryInv_hostEffect {s t : State} (h : MemoryInv s) (ht : HostEffect s t) : MemoryInv t := by
  cases ht with
  | status v => rw [writeStatus_eq]; exact ⟨h.buf_wf, h.key_wf⟩
  | bufCell b hb hk => exact ⟨Memory.wf_write b hk h.buf_wf, h.key_wf⟩
  | keyEntry v hb hk => exact ⟨h.buf_wf, Memory.wf_write v hk h.key_wf⟩
  | _ => exact ⟨h.buf_wf, h.key_wf⟩

end Sys2Proof.Machine
end

