-- ==== Sys2Proof/Tests/Slice0.lean ====
section
/-! SUPPORT. The model's own tests. Expected values are the spec's: the row of 95_test_vectors.md, or the rule, is named at
each test. Below them, a witness for the hypotheses of every obligation that has some. -/

namespace Sys2Proof.Tests

open Sys2Proof Sys2Proof.Machine

/-! ## Helpers -/

/-- A bit sequence written as digits, index 0 first (00_scope.md R7). -/
def bs (digits : List Nat) : List Bit := digits.map (· == 1)

/-- An idle core of this hardware with a sequence, a key and parameters loaded. -/
def mk (bits : List Nat) (key : List Nat := []) (chunk exp zpad opad : Nat := 0) : State :=
  { State.reset with
    buf := Memory.ofList (bs bits), len := toReg bits.length
    key := Memory.ofList (key.map toReg), klen := toReg key.length
    chunk := toReg chunk, exp := toReg exp, zpad := toReg zpad, opad := toReg opad }

/-- The same core built with another NMAX or TIE_BIT. -/
def withCfg (nmax : Nat) (tieBit : Bit) (s : State) : State := { s with cfg := { nmax := nmax, tieBit := tieBit } }

/-- The same core with the word `w` accepted, `d` transactions before it completes. -/
def busyWith (w : Word) (d : Nat) (s : State) : State := { s with cmd := w, busy := true, delay := d }

/-- The next state of an outcome. -/
def nextOf : Host.Outcome State Machine.Fault Machine.Refusal → State
  | .next t => t
  | .fault f => nomatch f
  | .refused _ => State.reset

/-- The state a command leaves. -/
def after (i : Instr) (s : State) : State := nextOf (exec i s)

/-- What a successful command left: sequence, LEN, KEY, ZPAD, OPAD, and STATUS. -/
def result (t : State) : List Bit × Nat × List Nat × Nat × Nat × Nat :=
  (t.bufSeq, t.len.toNat, t.keySeq, t.zpad.toNat, t.opad.toNat, t.statusWord.toNat)

/-- What a fault left: ERRCODE, ERRINFO, sequence, STATUS. -/
def faulted (t : State) : Nat × Nat × List Bit × Nat :=
  (t.errcodeWord.toNat, t.errinfo.toNat, t.bufSeq, t.statusWord.toNat)

/-! ## Decoding: words written out bit by bit (30_encoding.md R51) -/

theorem test_decode_nop : decode 0b00000000000000000000000000000000#32 = .command .nop := by decide
theorem test_decode_expand : decode 0b00000000000000000000000000000001#32 = .command .expand := by decide
theorem test_decode_shrink : decode 0b00000000000000000000000000000010#32 = .command .shrink := by decide
theorem test_decode_permute : decode 0b00000000000000000000000000000011#32 = .command .permute := by decide
theorem test_decode_replay : decode 0b00000000000000000000000000000100#32 = .command .replay := by decide
theorem test_decode_pad : decode 0b00000000000000000000000000000101#32 = .command .pad := by decide
theorem test_decode_depad : decode 0b00000000000000000000000000000110#32 = .command .depad := by decide
theorem test_decode_group : decode 0b00000000000000000000000000000111#32 = .command .group := by decide
theorem test_decode_ungroup : decode 0b00000000000000000000000000001000#32 = .command .ungroup := by decide

/-- 30_encoding.md R52: the first opcode past the map, the last one, and a set reserved bit at each end. -/
theorem test_decode_illegal :
    decode 0x00000009#32 = .illegal .reservedOpcode ∧ decode 0x000000FF#32 = .illegal .reservedOpcode ∧
    decode 0x00000101#32 = .illegal .reservedBits ∧ decode 0x80000000#32 = .illegal .reservedBits := by decide

/-- The table's numbering: a row's word is its number; a word above nbits is no instruction. -/
theorem test_decodeTableWord :
    decodeTableWord 32 8 = some .ungroup ∧ decodeTableWord 8 8 = some .ungroup ∧ decodeTableWord 32 9 = none ∧
    decodeTableWord 3 8 = none := by decide

/-- The command presented to the core right after reset runs in the next step: NOP sets DONE (R64), EXPAND
faults on the reset value of EXP (10_state.md R27). -/
theorem test_withFetchWord :
    (nextOf (step (State.reset.withFetchWord 32 0))).statusWord = 2#32 ∧
    faulted (nextOf (step (State.reset.withFetchWord 32 1))) = (2, 0, [], 4) := by decide

/-! ## Well-formedness smoke: ill-formed terms the checks refuse. No command has a field, so no ill-formed term of
`Instr` exists; the checks that can fail are those of a word, a configuration and a script line. -/

theorem smoke_wf_word :
    Word.isCommand 8#32 = true ∧ Word.isCommand 9#32 = false ∧ Word.isCommand 0x101#32 = false := by decide
theorem smoke_wf_config :
    Config.wf { nmax := 1, tieBit := true } = true ∧ Config.wf { nmax := 0, tieBit := false } = false ∧
    Config.wf { nmax := 2 ^ 24 + 1, tieBit := false } = false := by decide
theorem smoke_wf_line :
    Line.wf { nmax := 2, tieBit := false } (.loadBits [true, false]) = true ∧
    Line.wf { nmax := 2, tieBit := false } (.loadBits [true, false, true]) = false ∧
    Line.wf { nmax := 2, tieBit := false } (.loadKey [1, 2, 3]) = false := by decide

/-! ## One command each: the vectors of 95_test_vectors.md section 2 -/

/-- 40_command_control.md R64. -/
theorem test_nop : result (after .nop (mk [1, 0] [4] 0 0 3 5)) = (bs [1, 0], 2, [4], 3, 5, 2) := by decide

/-- V-E1, the source's own example. -/
theorem test_expand : result (after .expand (mk [1, 0, 1] [] 0 3)) =
    (bs [1, 1, 1, 0, 0, 0, 1, 1, 1], 9, [], 0, 0, 2) := by decide
/-- V-E7, V-E12: CAPACITY with the product, EXP_NONPOS with the raw word. -/
theorem test_expand_faults :
    faulted (after .expand (mk [1, 0] [] 0 65536)) = (6, 0x20000, bs [1, 0], 4) ∧
    faulted (after .expand (mk [1] [] 0 0x80000000)) = (2, 0x80000000, bs [1], 4) := by decide

/-- V-S6, V-S7: windows "110" and "10", a tie in a short window with odd e. -/
theorem test_shrink_tie :
    result (after .shrink (mk [1, 1, 0, 1, 0] [] 0 3)) = (bs [1, 0], 2, [], 0, 0, 2) ∧
    result (after .shrink (withCfg 65536 true (mk [1, 1, 0, 1, 0] [] 0 3))) = (bs [1, 1], 2, [], 0, 0, 2) := by
  decide
/-- V-S14, V-S16. -/
theorem test_shrink :
    result (after .shrink (mk [1, 1, 1, 0, 0, 1, 0] [] 0 3)) = (bs [1, 0, 0], 3, [], 0, 0, 2) ∧
    faulted (after .shrink (mk [1])) = (2, 0, bs [1], 4) := by decide

/-- V-P3, and the trace of "110010", both in 42_bit_permutation.md section 5: the scan meets transitions at 1 and 3,
the sequence itself has them at 1, 3 and 4. -/
theorem test_permute :
    result (after .permute (mk [1, 0, 1, 1, 0, 1, 0, 0] [] 4)) =
      (bs [1, 1, 1, 1, 0, 0, 0, 0], 8, [0, 0, 0, 1], 0, 0, 2) ∧
    liveTransitions (bs [1, 1, 0, 0, 1, 0]) 3 = [1, 3] ∧ transitions (bs [1, 1, 0, 0, 1, 0]) = [1, 3, 4] := by decide
/-- V-P16, where the cursor is re-set at two boundaries; V-P18. -/
theorem test_permute_reset :
    result (after .permute (mk [0, 1, 0, 0, 1, 1] [] 2)) = (bs [0, 0, 1, 1, 0, 1], 6, [0, 0, 0, 0, 0], 0, 0, 2) ∧
    faulted (after .permute (mk [1, 1, 0, 0, 1, 0])) = (3, 0, bs [1, 1, 0, 0, 1, 0], 4) := by decide

/-- V-R10, a key that is not from this sequence: swaps (1,2), (2,3), (4,5) undone last to first. -/
theorem test_replay : result (after .replay (mk [1, 1, 1, 0, 0, 0] [0, 0, 0, 0, 0] 3)) =
    (bs [1, 0, 1, 1, 0, 0], 6, [0, 0, 0, 0, 0], 0, 0, 2) := by decide
/-- V-R15, V-R18: the first bad entry; the sum is not reduced modulo 2^32. -/
theorem test_replay_malformed :
    faulted (after .replay (mk [1, 1, 1, 0, 0, 0] [1, 1, 2] 3)) = (5, 2, bs [1, 1, 1, 0, 0, 0], 4) ∧
    faulted (after .replay (mk [0, 1, 1, 0] [0, 0xFFFFFFFF] 2)) = (5, 1, bs [0, 1, 1, 0], 4) := by decide

/-- V-A11: only the last two runs are padded, the trailing run is ones. -/
theorem test_pad : result (after .pad (mk [0, 1, 0, 1] [] 3)) =
    (bs [0, 1, 0, 0, 0, 1, 1, 1], 8, [], 2, 2, 2) := by decide
/-- V-A2; and V-A1 in a buffer one cell too small. -/
theorem test_pad_uniform_capacity :
    result (after .pad (mk [0, 0, 0, 0] [] 8)) = (bs [0, 0, 0, 0, 0, 0, 0, 0], 8, [], 4, 0, 2) ∧
    faulted (after .pad (withCfg 7 false (mk [1, 1, 0, 0, 1, 0] [] 2))) =
      (6, 8, bs [1, 1, 0, 0, 1, 0], 4) := by decide

/-- V-D12, V-D9: a bit of the other polarity is skipped; under-run is no error. -/
theorem test_depad :
    result (after .depad (mk [1, 0, 1, 0] [] 2 0 0 1)) = (bs [1, 0, 0], 3, [], 0, 1, 2) ∧
    result (after .depad (mk [0, 0, 0] [] 4 0 2 1)) = (bs [0], 1, [], 2, 1, 2) := by decide
/-- V-D16, V-D15: ZPAD is tested first. -/
theorem test_depad_range :
    faulted (after .depad (mk [0, 0, 1, 1] [] 2 0 2 5)) = (4, 0, bs [0, 0, 1, 1], 4) ∧
    faulted (after .depad (mk [0, 0, 1, 1] [] 2 0 1 2)) = (4, 1, bs [0, 0, 1, 1], 4) := by decide

/-- V-G14: the padding is computed on the permuted sequence. -/
theorem test_group : result (after .group (mk [0, 1, 0, 0] [] 2)) =
    (bs [0, 0, 1, 1, 0, 0], 6, [0, 0, 0], 1, 1, 2) := by decide
/-- V-G19, and V-G1 in a buffer one cell too small, which leaves the original sequence. -/
theorem test_group_faults :
    faulted (after .group (mk [1, 1, 0, 0, 1, 0] [] 0xFFFFFFFF)) = (3, 0xFFFFFFFF, bs [1, 1, 0, 0, 1, 0], 4) ∧
    faulted (after .group (withCfg 7 false (mk [1, 1, 0, 0, 1, 0] [] 2))) = (6, 8, bs [1, 1, 0, 0, 1, 0], 4) := by
  decide

/-- 44_group_ungroup.md R101, the rule's example. -/
theorem test_ungroup : result (after .ungroup (mk [1, 1, 0, 0, 1, 1, 0, 0] [1, 1, 0] 2 0 1 1)) =
    (bs [1, 1, 0, 0, 1, 0], 6, [1, 1, 0], 1, 1, 2) := by decide
/-- R101: the key is checked against the depadded length 6 (p = 5 would fit the padded length 8). -/
theorem test_ungroup_malformed : faulted (after .ungroup (mk [1, 1, 0, 0, 1, 1, 0, 0] [5] 2 0 1 1)) =
    (5, 0, bs [1, 1, 0, 0, 1, 1, 0, 0], 4) := by decide

/-- 60_exceptions.md R112: the word is the info value. -/
theorem test_illegal : faulted (nextOf (step (busyWith 0x101 0 (mk [1])))) = (1, 0x101, bs [1], 4) := by decide

/-! ## The host's side -/

/-- 20_memory.md R34, R36: bit 0 is the cell, the index advances with AINC, a refused access moves nothing. -/
theorem test_bdata :
    (hostWrite 0x3C 4 0xFFFFFFFE { mk [1, 1] with ainc := true }).1.bufSeq = bs [0, 1] ∧
    (hostWrite 0x3C 4 0xFFFFFFFE { mk [1, 1] with ainc := true }).1.bidx = 1 ∧
    (hostRead 0x3C 4 { mk [1, 1] with ainc := true, bidx := 0x10000 }).2 = .busError ∧
    (hostRead 0x3C 4 { mk [1, 1] with ainc := true, bidx := 0x10000 }).1.bidx = 0x10000 := by decide

/-- 30_encoding.md R55: what LOADKEY, CALL and WAIT leave to do once their first transaction is answered. -/
theorem test_script_lines :
    Line.rest (.loadKey [7, 9]) (.value 1) =
      [.wr .ctrl 3, .wr .kidx 0, .wr .kdata 7, .wr .kdata 9, .wr .klen 2] ∧
    Line.rest (.call .group) .ok = [.wait, .rd .status] ∧
    Line.rest .wait (.value 1) = [.wait] ∧ Line.rest .wait (.value 2) = [] := by decide

/-- 30_encoding.md R54, R55: the transaction of a mnemonic's line, and of ACK. -/
theorem test_script_transactions :
    Line.issue .expand = .transact (.write 0x1C 4 1) ∧ Line.ack = .transact (.write 0x10 4 6) := by decide

/-! ## Witnesses: the hypotheses of the obligations can be met, clause by clause, at the bounds -/

theorem witness_DecodeEncodeAgree :
    Instr.wf .ungroup = true ∧ decode 8#32 = .command .ungroup ∧ decode 9#32 = .illegal .reservedOpcode := by decide

theorem witness_IllegalWordFaults :
    8 < ((busyWith 9 0 State.reset).cmd.extractLsb' 0 8).toNat ∧
    (busyWith 0x100 0 State.reset).cmd.extractLsb' 8 24 ≠ 0 := by decide

theorem witness_StepRunsDecodedCommand :
    ((busyWith 1 0 State.reset).busy = true ∧ (busyWith 1 0 State.reset).delay = 0 ∧
      decode (busyWith 1 0 State.reset).cmd = .command .expand) ∧
    ((busyWith 8 5 State.reset).busy = true ∧ (busyWith 8 5 State.reset).script = [] ∧
      decode (busyWith 8 5 State.reset).cmd = .command .ungroup) := by decide

theorem witness_StepPerformsTransaction :
    ({ State.reset with script := [.ack] } : State).completesNow = false ∧
    ({ busyWith 0 1 State.reset with script := [.ack] } : State).completesNow = false := by decide

theorem witness_IdleCoreKeepsState : State.reset.busy = false ∧ State.reset.script = [] := by decide

/-- A busy core with data loaded meets the register invariants, and has a next step. -/
theorem witness_RegisterInvariantsKept :
    (busyWith 7 0 (mk [1, 0] [1] 2)).cfg.Legal ∧ RegisterInv (busyWith 7 0 (mk [1, 0] [1] 2)) ∧
    ∃ t, step (busyWith 7 0 (mk [1, 0] [1] 2)) = .next t := by
  refine ⟨by decide, ?_, _, rfl⟩
  constructor <;> decide

theorem witness_MemoryFormKept :
    Inv (busyWith 7 0 (mk [1, 0] [1] 2)) ∧ ∃ t, step (busyWith 7 0 (mk [1, 0] [1] 2)) = .next t := by
  refine ⟨⟨by decide, ?_, ?_⟩, _, rfl⟩ <;> constructor <;> decide

/-- `rst` while a command runs, and while the core is idle. -/
theorem witness_ResetAssertion :
    ({ busyWith 7 1 (mk [1]) with script := [.rst] } : State).completesNow = false ∧
    ({ State.reset with script := [.rst] } : State).completesNow = false := by decide

/-- NOP's refusal clause: a running core, a faulted core. -/
theorem witness_NopRule :
    (busyWith 1 0 State.reset).busy = true ∧ ({ State.reset with err := true, errcode := 1 } : State).err = true := by
  decide

/-- e = 0 and e = -2^31; 1 * 65537 > NMAX; 1 * 65536 = NMAX. -/
theorem witness_ExpandRule :
    (mk [1]).cfg.Legal ∧ signed32 (mk [1] [] 0 0).exp ≤ 0 ∧ signed32 (mk [1] [] 0 0x80000000).exp ≤ 0 ∧
    (0 < signed32 (mk [1] [] 0 65537).exp ∧
      ((mk [1]).cfg.nmax : Int) < (mk [1] [] 0 65537).len.toNat * signed32 (mk [1] [] 0 65537).exp) ∧
    (0 < signed32 (mk [1] [] 0 65536).exp ∧
      (mk [1] [] 0 65536).len.toNat * signed32 (mk [1] [] 0 65536).exp ≤ ((mk [1]).cfg.nmax : Int)) := by decide

theorem witness_ShrinkRule :
    signed32 (mk [1] [] 0 0).exp ≤ 0 ∧ 0 < signed32 (mk [1, 0] [] 0 1).exp ∧
    (0 < signed32 (mk [1, 0] [] 0 0x7FFFFFFF).exp ∧ 0 < (after .shrink (mk [1, 0] [] 0 0x7FFFFFFF)).len.toNat) := by
  decide

/-- A scan with a transition and an index that is none. -/
theorem witness_PermuteRule :
    signed32 (mk [1] [] 0x80000000).chunk ≤ 0 ∧ 0 < signed32 (mk [1, 1, 0] [] 1).chunk ∧
    (mk [1, 1, 0] [] 1).bufSeq[0]? = (mk [1, 1, 0] [] 1).bufSeq[1]? ∧
    (mk [1, 1, 0] [] 1).bufSeq[1]? ≠ (mk [1, 1, 0] [] 1).bufSeq[2]? := by decide

/-- Positions n - 1 (the first malformed one) and n - 2 (the last well-formed one), for n = 6. -/
theorem witness_ReplayRule :
    signed32 (mk [1] [] 0).chunk ≤ 0 ∧
    (0 < signed32 (mk [1, 1, 1, 0, 0, 0] [1, 3] 1).chunk ∧
      1 < (keyPositions (mk [1, 1, 1, 0, 0, 0] [1, 3] 1).keySeq).length ∧
      6 < (keyPositions (mk [1, 1, 1, 0, 0, 0] [1, 3] 1).keySeq).getD 1 0 + 2 ∧
      ∀ r, r < 1 → (keyPositions (mk [1, 1, 1, 0, 0, 0] [1, 3] 1).keySeq).getD r 0 + 2 ≤ 6) ∧
    (0 < signed32 (mk [1, 1, 1, 0, 0, 0] [1, 2] 1).chunk ∧
      ∀ r, r < 2 → (keyPositions (mk [1, 1, 1, 0, 0, 0] [1, 2] 1).keySeq).getD r 0 + 2 ≤ 6) := by decide

/-- "110010" with chunk size 2 needs 8 cells: NMAX 7 is one too few, NMAX 8 is enough. -/
theorem witness_PadRule :
    (withCfg 7 false (mk [1])).cfg.Legal ∧ signed32 (mk [1] [] 0).chunk ≤ 0 ∧
    0 < signed32 (mk [1, 1, 0, 0, 1, 0] [] 2).chunk ∧
    (tailRuns (mk [1, 1, 0, 0, 1, 0] [] 2).bufSeq).d = 5 ∧
    6 + (2 - (tailRuns (mk [1, 1, 0, 0, 1, 0] [] 2).bufSeq).l1 % 2) % 2 +
      (2 - (tailRuns (mk [1, 1, 0, 0, 1, 0] [] 2).bufSeq).l2 % 2) % 2 = 8 := by decide

/-- ZPAD = c; ZPAD = c - 1 and OPAD = c; both c - 1. -/
theorem witness_DepadRule :
    signed32 (mk [1]).chunk ≤ 0 ∧
    (0 < signed32 (mk [1] [] 2 0 2 0).chunk ∧ signed32 (mk [1] [] 2 0 2 0).chunk ≤ (mk [1] [] 2 0 2 0).zpad.toNat) ∧
    ((mk [1] [] 2 0 1 2).zpad.toNat < signed32 (mk [1] [] 2 0 1 2).chunk ∧
      signed32 (mk [1] [] 2 0 1 2).chunk ≤ (mk [1] [] 2 0 1 2).opad.toNat) ∧
    ((mk [1] [] 2 0 1 1).zpad.toNat < signed32 (mk [1] [] 2 0 1 1).chunk ∧
      (mk [1] [] 2 0 1 1).opad.toNat < signed32 (mk [1] [] 2 0 1 1).chunk) := by decide

theorem witness_GroupRule :
    (withCfg 7 false (mk [1])).cfg.Legal ∧ signed32 (mk [1]).chunk ≤ 0 ∧
    0 < signed32 (mk [1, 1, 0, 0, 1, 0] [] 2).chunk ∧
    (padCore (permuteCore (mk [1, 1, 0, 0, 1, 0] [] 2).bufSeq 2).1 2).out.length = 8 := by decide

/-- The clauses on ZPAD and OPAD are those of `witness_DepadRule`; here positions 5 and 4 on the depadded length 6. -/
theorem witness_UngroupRule :
    let s := mk [1, 1, 0, 0, 1, 1, 0, 0] [5] 2 0 1 1
    let u := mk [1, 1, 0, 0, 1, 1, 0, 0] [4] 2 0 1 1
    (0 < signed32 s.chunk ∧ s.zpad.toNat < signed32 s.chunk ∧ s.opad.toNat < signed32 s.chunk ∧
      (depadCore s.bufSeq s.zpad.toNat s.opad.toNat).length < (keyPositions s.keySeq).getD 0 0 + 2) ∧
    (0 < signed32 u.chunk ∧ u.zpad.toNat < signed32 u.chunk ∧ u.opad.toNat < signed32 u.chunk ∧
      (keyPositions u.keySeq).getD 0 0 + 2 ≤ (depadCore u.bufSeq u.zpad.toNat u.opad.toNat).length) := by decide

theorem witness_CursorStepRule :
    (1 + 1) % 2 = 0 ∧ (0 + 1) % 2 ≠ 0 ∧ [0, 1, 2].Pairwise (· < ·) ∧ (1, 2) ∈ swapsFrom 2 none [0, 1, 2] := by decide

theorem witness_KeyPositionsRule :
    [1, 1] = (permuteCore (bs [1, 1, 0, 0, 1, 0]) 3).2 ∧ ([1, 1, 2] : List Nat) ≠ [] ∧ 1 + 1 < [1, 1, 2].length ∧ keyWellFormed [1, 1, 2] 8 = true ∧
    keyWellFormed [1, 1, 2] 7 = false ∧ (1 : Nat) ≤ 1 ∧ [1, 1, 2].length ≤ 2 ^ 24 ∧
    ∀ k ∈ ([1, 1, 2] : List Nat), k < 2 ^ 32 := by decide

/-- A uniform sequence, a penultimate run that begins the sequence, and one that does not. -/
theorem witness_TailRunsRule :
    (tailRuns (bs [1, 1])).d = 0 ∧
    ((tailRuns (bs [0, 1])).d = 1 ∧ (tailRuns (bs [0, 1])).l2 = 1) ∧
    ((tailRuns (bs [1, 0, 1])).d = 2 ∧ (tailRuns (bs [1, 0, 1])).l2 = 1) := by decide

theorem witness_ExpandThenShrink :
    (withCfg 6 true (mk [1, 0])).cfg.Legal ∧ 0 < signed32 (mk [1, 0] [] 0 3).exp ∧
    (mk [1, 0] [] 0 3).len.toNat * (signed32 (mk [1, 0] [] 0 3).exp).toNat ≤ (withCfg 6 true (mk [1, 0])).cfg.nmax ∧
    (mk [1, 0] [] 0 1).exp = 1 := by decide

/-- "110 001" is "111 000" with one bit of each window inverted. -/
theorem witness_CorruptedExpansionShrinksBack :
    let s := mk [1, 1, 0, 0, 0, 1] [] 0 3
    0 < signed32 s.exp ∧ (signed32 s.exp).toNat % 2 = 1 ∧ s.len.toNat = (bs [1, 0]).length * (signed32 s.exp).toNat ∧
    ∀ q, q < (bs [1, 0]).length →
      ((List.range 3).filter fun j => s.bufCell (q * 3 + j) != (bs [1, 0]).getD q false).length < (3 + 1) / 2 := by
  decide

theorem witness_PermuteThenReplay : 0 < signed32 (mk [1, 0] [] 1).chunk := by decide

theorem witness_PermuteBoundsAndPermutes : 0 < signed32 (mk [1, 0, 1] [] 2).chunk ∧
    (after .permute (mk [1, 0, 1] [] 2)).keySeq ≠ [] := by decide

/-- Run lengths 2, 1, 1 from polarity 1. -/
theorem witness_PermuteFixedCases :
    (mk [1, 1, 0, 1] [] 1).chunk = 1 ∧ (mk [1] [] 2).len.toNat ≤ 1 ∧
    (mk [0, 0] [] 2).bufSeq = List.replicate 2 false ∧ (∀ x ∈ ([2, 1] : List Nat), 1 ≤ x) ∧
    (mk [1, 1, 0, 1] [] 1).bufSeq = (([2, 1] ++ [1]).zipIdx.map fun x : Nat × Nat =>
      List.replicate x.1 (true ^^ decide (x.2 % 2 = 1))).flatten := by decide

/-- NMAX is exactly n + 2(c-1), for n = 6 and c = 2. -/
theorem witness_PadProperties :
    let s := withCfg 8 false (mk [1, 1, 0, 0, 1, 0] [] 2)
    s.cfg.Legal ∧ 0 < signed32 s.chunk ∧ s.len.toNat + 2 * ((signed32 s.chunk).toNat - 1) ≤ s.cfg.nmax ∧
    s.bufSeq ≠ [] ∧ (after .pad s).bufSeq ≠ [] := by decide

theorem witness_GroupThenUngroup :
    let s := withCfg 8 false (mk [1, 1, 0, 0, 1, 0] [] 2)
    s.cfg.Legal ∧ 0 < signed32 s.chunk ∧ s.len.toNat + 2 * ((signed32 s.chunk).toNat - 1) ≤ s.cfg.nmax ∧
    (after .group s).bufSeq ≠ [] := by decide

theorem witness_EncodeThenDecodeFlow :
    let s := withCfg 8 false (mk [1, 0] [] 2 3)
    s.cfg.Legal ∧ 0 < signed32 s.chunk ∧ 0 < signed32 s.exp ∧
    s.len.toNat * (signed32 s.exp).toNat + 2 * ((signed32 s.chunk).toNat - 1) ≤ s.cfg.nmax := by decide

/-- Two states that differ in a register no command reads agree for every command; for NOP, in all operands too. -/
theorem witness_CommandsReadOnlyTheirOperands :
    (∀ i, ReadsAgree i (mk [1, 0] [0] 2 3 1 1) { mk [1, 0] [0] 2 3 1 1 with bidx := 7, errinfo := 9, ie := true }) ∧
    ReadsAgree .nop (mk [1, 0] [0] 2 3 1 1) (mk [0, 1, 1] [] 5 6 7 8) := by
  refine ⟨fun i => ?_, rfl, trivial⟩
  cases i <;> exact ⟨rfl, by trivial⟩

theorem witness_CommandsWriteOnlyTheirResults :
    (mk [1, 0] [] 2).done = false ∧ (mk [1, 0] [] 2).err = false ∧ Instr.pad ≠ .permute ∧ Instr.pad ≠ .group := by decide

/-- Each kind of command succeeds from a state that meets the hypotheses. -/
theorem witness_CellsAboveResultUnspecified :
    (mk [1, 0] [] 2 3).cfg.Legal ∧ (mk [1, 0] [] 2 3).len.toNat ≤ (mk [1, 0] [] 2 3).cfg.nmax ∧
    (mk [1, 0] [] 2 3).err = false ∧
    ∀ i ∈ ([.expand, .shrink, .permute, .replay, .pad, .depad, .group, .ungroup] : List Instr),
      (after i (mk [1, 0] [] 2 3)).err = false := by decide

/-- Offsets 0x46 and 0x48, and a width of 2. -/
theorem witness_MalformedAccessRefused :
    (0x46 : Offset).toNat % 4 ≠ 0 ∧ (2 : Nat) ≠ 4 ∧ 0x48 ≤ (0x48 : Offset).toNat := by decide

theorem witness_BusErrorChangesNothing : transact (.read 0x48 4) State.reset = (State.reset, .busError) := by decide

/-- A write that the running core accepts, and one that it refuses. -/
theorem witness_RunningCommandUndisturbed :
    (busyWith 7 1 (mk [1])).busy = true ∧ (transact (.write 0x0C 4 3) (busyWith 7 1 (mk [1]))).2 = .ok ∧
    (transact (.write 0x30 4 3) (busyWith 7 1 (mk [1]))).2 = .busError := by decide

/-- The first and last offsets of both groups. -/
theorem witness_BusyLock :
    (busyWith 7 1 (mk [1])).busy = true ∧ ∀ off ∈ ([0x00, 0x1C, 0x20, 0x44] : List Offset), off.toNat % 4 = 0 := by decide

theorem witness_BitPort :
    (mk [1]).busy = false ∧ (mk [1]).cfg.nmax ≤ ({ mk [1] with bidx := 0x10000 } : State).bidx.toNat ∧
    ({ mk [1] with bidx := 0xFFFF } : State).bidx.toNat < (mk [1]).cfg.nmax := by decide

theorem witness_EntryPort :
    (mk [1]).busy = false ∧ (mk [1]).cfg.nmax ≤ ({ mk [1] with kidx := 0x10000 } : State).kidx.toNat ∧
    ({ mk [1] with kidx := 0xFFFF } : State).kidx.toNat < (mk [1]).cfg.nmax := by decide

theorem witness_LengthWritesRangeChecked :
    State.reset.busy = false ∧ State.reset.cfg.nmax < (65537#32).toNat ∧ (65536#32).toNat ≤ State.reset.cfg.nmax := by
  decide

theorem witness_RegisterAccessKinds : State.reset.busy = false ∧ (busyWith 7 1 State.reset).busy = true := by decide

theorem witness_CommandAcceptance :
    (State.reset.busy = false ∧ State.reset.err = false) ∧ (busyWith 7 1 State.reset).busy = true ∧
    ({ State.reset with err := true, errcode := 1 } : State).err = true := by decide

/-- ACK's word; and a step in which ACK clears ERR. -/
theorem witness_FaultAcknowledgement :
    (6#32).getLsbD 2 = true ∧
    (nextOf (step { mk [1] with err := true, errcode := 2, script := [.ack] })).err = false ∧
    (nextOf (step { mk [1] with err := true, errcode := 2, script := [.rst] })).err = false := by decide

theorem witness_InterruptLevel :
    ({ busyWith 0 0 State.reset with ie := true } : State).ie = true ∧
    (hostWrite 0x1C 4 5 { State.reset with ie := true, done := true }).2 = .ok ∧
    (6#32).getLsbD 1 = true ∧ (6#32).getLsbD 2 = true := by decide

theorem witness_AcceptedCommandCompletes :
    ({ busyWith 7 2 (mk [1]) with script := [.ack, .ack, .ack] } : State).busy = true := by decide

theorem witness_WaitTerminates : ({ busyWith 7 2 (mk [1]) with script := [.wait] } : State).script = [.wait] := by decide

/-- A sequence that fills the buffer. -/
theorem witness_LoadBitsLoads :
    let s := { withCfg 2 false State.reset with script := [.loadBits [true, false]] }
    s.cfg.Legal ∧ s.busy = false ∧ [true, false].length ≤ s.cfg.nmax ∧ s.script = [.loadBits [true, false]] := by decide

theorem witness_ReadBitsReads :
    let s := { withCfg 2 false (mk [1, 0]) with script := [.readBits] }
    s.cfg.Legal ∧ s.busy = false ∧ s.len.toNat ≤ s.cfg.nmax ∧ s.script = [.readBits] := by decide

end Sys2Proof.Tests
end

section
/-! PROOFS. The family 10_state.md: the register invariants over a step (R26) and the reset values (R27). -/

namespace Sys2Proof.Machine

/-! ## The parameters are constant (00_scope.md R4, R5) -/

@[simp] theorem complete_cfg (r : Result) (s : State) : (s.complete r).cfg = s.cfg := by
  cases r <;> simp

theorem performLine_cfg (l : Line) (s : State) : (performLine l s).cfg = s.cfg := by
  rcases performLine_cases l s with ⟨-, hp⟩ | ⟨x, -, hp⟩ <;> rw [hp]
  · exact assertReset_cfg s
  · exact (transact_effect x s.tick).keeps.1

theorem step_cfg {s t : State} (h : step s = .next t) : t.cfg = s.cfg := by
  rcases step_cases s with ⟨-, r, hs, -⟩ | ⟨-, -, hs⟩ | ⟨-, l, ls, -, hs⟩ <;>
    rw [hs, Host.Outcome.next.injEq] at h <;> subst h
  · exact complete_cfg r s
  · rfl
  · exact performLine_cfg l { s with script := ls }

/-! ## The register invariants over a step (10_state.md R26) -/

/-- A completion keeps them when its updates, if it succeeds, fit the buffers. -/
theorem registerInv_complete {s : State} {r : Result} (h : RegisterInv s) (hc : s.cfg.Legal)
    (hb : s.busy = true) (hf : ∀ u, r = .success u → Fits s u) : RegisterInv (s.complete r) := by
  cases r with
  | fault c info => exact registerInv_takeFault c info h hb
  | success u => exact registerInv_commit h (hf u rfl) hc hb

/-- A line of the script, `rst` included, keeps them. -/
theorem registerInv_performLine {s : State} (l : Line) (h : RegisterInv s) :
    RegisterInv (performLine l s) := by
  rcases performLine_cases l s with ⟨-, hp⟩ | ⟨x, -, hp⟩ <;> rw [hp]
  · exact registerInv_assertReset
  · have htick : RegisterInv s.tick := registerInv_own h (s.delay - 1) s.script s.log
    exact registerInv_own (registerInv_hostEffect htick (transact_effect x s.tick)) _ _ _

theorem registerInv_step {s t : State} (hc : s.cfg.Legal) (h : RegisterInv s)
    (hst : step s = .next t) : RegisterInv t := by
  rcases step_cases s with ⟨hnow, r, hs, hr⟩ | ⟨-, -, hs⟩ | ⟨-, l, ls, -, hs⟩ <;>
    rw [hs, Host.Outcome.next.injEq] at hst <;> subst hst
  · refine registerInv_complete h hc (completesNow_busy hnow) fun u hu => ?_
    rcases hr with ⟨i, -, hi⟩ | ⟨why, -, hi⟩
    · exact fits_of_success hc h.len_le (hi.symm.trans hu)
    · exact absurd (hi.symm.trans hu) (by simp)
  · exact h
  · exact registerInv_performLine l (registerInv_own h s.delay ls s.log)

/-- Settles O9: reset meets the invariants, and each of the three kinds of step (a completion, nothing to do,
a line of the script) keeps them and the parameters. -/
theorem registerInvariantsKept : Obligations.RegisterInvariantsKept :=
  ⟨registerInv_reset, fun _ _ hc h hst => ⟨step_cfg hst, registerInv_step hc h hst⟩⟩

/-! ## The reset values (10_state.md R27) -/

/-- STATUS reads as 0 when its three bits are clear (10_state.md R20). -/
theorem statusWord_eq_zero {s : State} (hb : s.busy = false) (hd : s.done = false) (he : s.err = false) :
    s.statusWord = 0 := by
  rw [State.statusWord, hb, hd, he]; rfl

/-- CTRL reads as 0 when its two bits are clear (10_state.md R22). -/
theorem ctrlWord_eq_zero {s : State} (hi : s.ie = false) (ha : s.ainc = false) : s.ctrlWord = 0 := by
  rw [State.ctrlWord, hi, ha]; rfl

/-- ERRCODE reads as 0 when it holds no cause (10_state.md R21). -/
theorem errcodeWord_eq_zero {s : State} (h : s.errcode = 0) : s.errcodeWord = 0 := by
  rw [State.errcodeWord, h]; rfl

/-- Settles O11: each register by its field of `State.reset`, STATUS, ERRCODE and CTRL by the words their
clear bits read as. -/
theorem resetValues : Obligations.ResetValues := by
  have hstatus : State.reset.statusWord = 0 := statusWord_eq_zero rfl rfl rfl
  have herrcode : State.reset.errcodeWord = 0 := errcodeWord_eq_zero rfl
  have hctrl : State.reset.ctrlWord = 0 := ctrlWord_eq_zero rfl rfl
  have hcap0 : State.reset.cap0Word = 0x00010000#32 := by decide
  have hcap1 : State.reset.cap1Word = 0 := by decide
  exact ⟨rfl, rfl, rfl, rfl, rfl, rfl, rfl, hstatus, rfl, rfl, rfl, herrcode, rfl, hctrl, rfl, rfl,
    rfl, rfl, rfl, hcap0, hcap1, rfl⟩

end Sys2Proof.Machine
end

section
/-! PROOFS. The family 20_memory.md: the map and its refusals (R32), the BUSY lock (R33), the data ports (R34 to
R36), the range-checked writes (R37) and the access kinds (R38). -/

namespace Sys2Proof.Machine

/-! ## Offsets and registers (20_memory.md R31) -/

/-- Every aligned offset up to 0x44 is some register's own. -/
theorem exists_reg_of_aligned {off : Offset} (ha : off.toNat % 4 = 0) (hl : off.toNat ≤ 0x44) :
    ∃ r : Reg, off = r.offset := by
  have map : ∀ k < 18, (selectReg (BitVec.ofNat 8 (4 * k)) 4).isSome = true := by decide
  have hoff : BitVec.ofNat 8 (4 * (off.toNat / 4)) = off := by
    rw [Nat.mul_div_cancel' (Nat.dvd_of_mod_eq_zero ha), BitVec.ofNat_toNat, BitVec.setWidth_eq]
  have hsome := map (off.toNat / 4) (by omega)
  rw [hoff] at hsome
  obtain ⟨r, hr⟩ := Option.isSome_iff_exists.1 hsome
  exact ⟨r, (offset_of_selectReg hr).1⟩

/-- The operand group starts at 0x20. -/
theorem isOperand_iff (r : Reg) : r.isOperand = true ↔ 0x20 ≤ r.offset.toNat := by
  cases r <;> decide

/-! ## Accesses that reach their register -/

section
variable (r : Reg) (v : Word) {s : State}

/-- A read of an idle core (20_memory.md R33). -/
theorem hostRead_idle (hb : s.busy = false) : hostRead r.offset 4 s = readReg r s :=
  hostRead_reg r (by rw [hb, Bool.false_and])

/-- A write of an idle core (20_memory.md R33). -/
theorem hostWrite_idle (hb : s.busy = false) : hostWrite r.offset 4 v s = writeReg r v s :=
  hostWrite_reg r v (by rw [hb, Bool.false_and])

/-- A read of the control group, the core busy or not (20_memory.md R33). -/
theorem hostRead_control (ho : r.isOperand = false) : hostRead r.offset 4 s = readReg r s :=
  hostRead_reg r (by rw [ho, Bool.and_false])

/-- A write of the control group, the core busy or not (20_memory.md R33). -/
theorem hostWrite_control (ho : r.isOperand = false) : hostWrite r.offset 4 v s = writeReg r v s :=
  hostWrite_reg r v (by rw [ho, Bool.and_false])

end

/-- Settles O36: such an access selects no register, and without one both directions are refused. -/
theorem malformedAccessRefused : Obligations.MalformedAccessRefused := by
  intro off size v s h
  have hsel : selectReg off size = none := selectReg_none h
  exact ⟨by rw [hostRead, hsel], by rw [hostWrite, hsel]⟩

/-! ## The control group under the BUSY lock (20_memory.md R33) -/

section
variable {r : Reg} (ho : r.isOperand = false) (v : Word) (s : State) (b : Bool)
include ho

/-- A read of the control group has no side effect (20_memory.md R44). -/
theorem readReg_control_state : (readReg r s).1 = s := by
  cases r with
  | id | cap0 | cap1 | ctrl | status | errcode | errinfo | cmd => rfl
  | _ => cases ho

/-- Only STATUS shows BUSY to a read of the control group. -/
theorem readReg_control_setBusy (hr : r ≠ .status) :
    (readReg r { s with busy := b }).2 = (readReg r s).2 := by
  cases r with
  | status => contradiction
  | id | cap0 | cap1 | ctrl | errcode | errinfo | cmd => rfl
  | _ => cases ho

/-- Only a write of CMD looks at BUSY, and no other write of the control group changes it. -/
theorem writeReg_control_setBusy (hr : r ≠ .cmd) :
    writeReg r v { s with busy := b } = ({ (writeReg r v s).1 with busy := b }, (writeReg r v s).2) := by
  cases r with
  | status => simp only [writeReg, writeStatus_eq]
  | cmd => contradiction
  | id | cap0 | cap1 | ctrl | errcode | errinfo => rfl
  | _ => cases ho

end

/-- A command write to a busy core is refused (40_command_control.md R60). -/
theorem writeCmd_busy {s : State} (w : Word) (hb : s.busy = true) : writeCmd w s = (s, .busError) := by
  rw [writeCmd, hb, Bool.true_or, if_pos rfl]

/-- Writing back the value BUSY holds changes nothing. -/
theorem setBusy_self {s : State} {b : Bool} (hb : s.busy = b) : { s with busy := b } = s := by
  rw [← hb]

/-- Settles O39: the operand group is locked, a command write is refused, and a control register reads and
writes as in the same core with BUSY cleared. -/
theorem busyLock : Obligations.BusyLock := by
  intro s off v hb ha
  refine ⟨fun hlo hhi => ?_, ?_, fun hhi => ?_⟩
  · obtain ⟨r, rfl⟩ := exists_reg_of_aligned ha hhi
    have ho : r.isOperand = true := (isOperand_iff r).2 hlo
    exact ⟨hostRead_locked hb ho, hostWrite_locked v hb ho⟩
  · exact (hostWrite_control .cmd v rfl).trans (writeCmd_busy v hb)
  · obtain ⟨r, rfl⟩ := exists_reg_of_aligned ha (by omega)
    have ho : r.isOperand = false := by
      rw [← Bool.not_eq_true, isOperand_iff]; omega
    rw [hostRead_control r ho, hostRead_control r ho, hostWrite_control r v ho, hostWrite_control r v ho]
    refine ⟨Prod.ext (readReg_control_state ho s) rfl, fun hr => ?_, hostRead_control .status rfl, fun hr => ?_⟩
    · exact (readReg_control_setBusy ho s false fun h => hr (by rw [h]; rfl)).symm
    · have hw := writeReg_control_setBusy ho v { s with busy := false } true fun h => hr (by rw [h]; rfl)
      have hs : { { s with busy := false } with busy := true } = s := setBusy_self hb
      rwa [hs] at hw

/-! ## The data ports (20_memory.md R34, R35, R36) -/

section
variable (s : State)

/-- The cell a host write addresses takes the bit (20_memory.md R40 (b)). -/
@[simp] theorem bufCell_writeBufCell_same (k : Nat) (b : Bit) : (s.writeBufCell k b).bufCell k = b := by
  simp [State.bufCell]

/-- A host write of one BUF cell leaves every other (20_memory.md R40 (b)). -/
theorem bufCell_writeBufCell_other {k j : Nat} (b : Bit) (h : j ≠ k) :
    (s.writeBufCell k b).bufCell j = s.bufCell j := by
  simp [State.bufCell, Memory.read_write_other s.buf b h]

/-- The entry a host write addresses takes the word (20_memory.md R40 (b)). -/
@[simp] theorem keyEntry_writeKeyEntry_same (t : Nat) (v : Word) : (s.writeKeyEntry t v).keyEntry t = v := by
  simp [State.keyEntry]

/-- A host write of one KEY entry leaves every other (20_memory.md R40 (b)). -/
theorem keyEntry_writeKeyEntry_other {t j : Nat} (v : Word) (h : j ≠ t) :
    (s.writeKeyEntry t v).keyEntry j = s.keyEntry j := by
  simp [State.keyEntry, Memory.read_write_other s.key v h]

end

section
variable {s : State} (v : Word)

/-- BDATA with BIDX out of range (20_memory.md R34). -/
theorem bdata_out_of_range (h : s.cfg.nmax ≤ s.bidx.toNat) :
    readReg .bdata s = (s, .busError) ∧ writeReg .bdata v s = (s, .busError) :=
  ⟨if_pos h, if_pos h⟩

/-- BDATA with BIDX in range (20_memory.md R34). -/
theorem bdata_in_range (h : s.bidx.toNat < s.cfg.nmax) :
    readReg .bdata s = (s.advanceBidx, .value (zextBit (s.bufCell s.bidx.toNat))) ∧
      writeReg .bdata v s = ((s.writeBufCell s.bidx.toNat (wordBit v 0)).advanceBidx, .ok) :=
  ⟨if_neg (Nat.not_le.2 h), if_neg (Nat.not_le.2 h)⟩

/-- KDATA with KIDX out of range (20_memory.md R35). -/
theorem kdata_out_of_range (h : s.cfg.nmax ≤ s.kidx.toNat) :
    readReg .kdata s = (s, .busError) ∧ writeReg .kdata v s = (s, .busError) :=
  ⟨if_pos h, if_pos h⟩

/-- KDATA with KIDX in range (20_memory.md R35). -/
theorem kdata_in_range (h : s.kidx.toNat < s.cfg.nmax) :
    readReg .kdata s = (s.advanceKidx, .value (s.keyEntry s.kidx.toNat)) ∧
      writeReg .kdata v s = ((s.writeKeyEntry s.kidx.toNat v).advanceKidx, .ok) :=
  ⟨if_neg (Nat.not_le.2 h), if_neg (Nat.not_le.2 h)⟩

end

/-- Settles O40: by the range of BIDX; in range the increment leaves the cells as the write has them. -/
theorem bitPort : Obligations.BitPort := by
  intro s v hb
  have hr : hostRead 0x3C 4 s = readReg .bdata s := hostRead_idle .bdata hb
  have hw : hostWrite 0x3C 4 v s = writeReg .bdata v s := hostWrite_idle .bdata v hb
  rw [hr, hw]
  refine ⟨bdata_out_of_range v, fun h => ?_⟩
  obtain ⟨hread, hwrite⟩ := bdata_in_range v h
  exact ⟨hread, _, hwrite, bufCell_writeBufCell_same s _ _, fun _ => bufCell_writeBufCell_other s _, rfl⟩

/-- Settles O41: by the range of KIDX; in range the increment leaves the entries as the write has them. -/
theorem entryPort : Obligations.EntryPort := by
  intro s v hb
  have hr : hostRead 0x44 4 s = readReg .kdata s := hostRead_idle .kdata hb
  have hw : hostWrite 0x44 4 v s = writeReg .kdata v s := hostWrite_idle .kdata v hb
  rw [hr, hw]
  refine ⟨kdata_out_of_range v, fun h => ?_⟩
  obtain ⟨hread, hwrite⟩ := kdata_in_range v h
  exact ⟨hread, _, hwrite, keyEntry_writeKeyEntry_same s _ _, fun _ => keyEntry_writeKeyEntry_other s _, rfl⟩

/-! ## Range-checked writes (20_memory.md R37) -/

/-- Settles O42: by the range of the value; neither register is part of a cell or an entry. -/
theorem lengthWritesRangeChecked : Obligations.LengthWritesRangeChecked := by
  intro s v hb
  have hlen : hostWrite 0x30 4 v s = writeReg .len v s := hostWrite_idle .len v hb
  have hklen : hostWrite 0x34 4 v s = writeReg .klen v s := hostWrite_idle .klen v hb
  rw [hlen, hklen]
  refine ⟨fun h => ⟨if_pos h, if_pos h⟩, fun h => ?_⟩
  have hl : writeReg .len v s = ({ s with len := v }, .ok) := if_neg (Nat.not_lt.2 h)
  have hk : writeReg .klen v s = ({ s with klen := v }, .ok) := if_neg (Nat.not_lt.2 h)
  rw [hl, hk]
  exact ⟨rfl, rfl, fun _ => rfl, fun _ => rfl⟩

/-! ## Access kinds (20_memory.md R38) -/

/-- A bit extended to a word stands in bit 0 (20_memory.md R34). -/
@[simp] theorem zextBit_getLsbD (b : Bit) (k : Nat) : (zextBit b).getLsbD k = (b && decide (k = 0)) := by
  cases b <;> simp [zextBit]

/-- The same of `w[k]`, the form `simp` gives a bit below 32. -/
@[simp] theorem zextBit_getElem (b : Bit) {k : Nat} (hk : k < 32) : (zextBit b)[k] = (b && decide (k = 0)) := by
  rw [← BitVec.getLsbD_eq_getElem, zextBit_getLsbD]

/-- Bit `k` of STATUS as read, reserved bits included (10_state.md R20). -/
theorem statusWord_getLsbD (s : State) (k : Nat) : s.statusWord.getLsbD k =
    (s.busy && decide (k = 0) || s.done && decide (k = 1) || s.err && decide (k = 2)) := by
  match k with
  | 0 | 1 | 2 => simp [State.statusWord]
  | k + 3 => simp [State.statusWord]

/-- Bit `k` of CTRL as read, reserved bits included (10_state.md R22). -/
theorem ctrlWord_getLsbD (s : State) (k : Nat) :
    s.ctrlWord.getLsbD k = (s.ie && decide (k = 0) || s.ainc && decide (k = 1)) := by
  match k with
  | 0 | 1 => simp [State.ctrlWord]
  | k + 2 => simp [State.ctrlWord]

/-- A write to a read-only register is accepted and has no effect. -/
theorem hostWrite_readOnly (s : State) (v : Word) :
    ∀ off ∈ [(0x00 : Offset), 0x04, 0x08, 0x14, 0x18], hostWrite off 4 v s = (s, .ok) := by
  simp only [List.forall_mem_cons, List.not_mem_nil, false_implies, implies_true, and_true]
  exact ⟨hostWrite_control .id v rfl, hostWrite_control .cap0 v rfl, hostWrite_control .cap1 v rfl,
    hostWrite_control .errcode v rfl, hostWrite_control .errinfo v rfl⟩

/-- Settles O43: the control group answers whether busy or not, the operand group when idle, each register by
its own case; the words of CTRL and STATUS bit by bit. -/
theorem registerAccessKinds : Obligations.RegisterAccessKinds := by
  intro s v
  have hstatus : hostWrite 0x10 4 v s = (s.writeStatus v, .ok) := hostWrite_control .status v rfl
  rw [hstatus]
  refine ⟨hostWrite_readOnly s v, hostWrite_control .ctrl v rfl, rfl, writeStatus_eq v s, fun hb => ?_,
    hostRead_control .id rfl, hostRead_control .cap0 rfl, hostRead_control .cap1 rfl,
    hostRead_control .errcode rfl, hostRead_control .errinfo rfl, hostRead_control .cmd rfl,
    ⟨s.ctrlWord, hostRead_control .ctrl rfl, ?_⟩, ⟨s.statusWord, hostRead_control .status rfl, ?_⟩⟩
  · have wr := fun r => hostWrite_idle r v hb
    have rd := fun r => hostRead_idle r hb
    exact ⟨wr .chunk, wr .exp, wr .zpad, wr .opad, wr .bidx, wr .kidx, rd .chunk, rd .exp, rd .zpad, rd .opad,
      rd .len, rd .klen, rd .bidx, rd .kidx⟩
  · have hbit := ctrlWord_getLsbD s
    exact ⟨(hbit 0).trans (by simp), (hbit 1).trans (by simp),
      fun k hk => (hbit k).trans (by simp [show k ≠ 0 by omega, show k ≠ 1 by omega])⟩
  · have hbit := statusWord_getLsbD s
    exact ⟨(hbit 0).trans (by simp), (hbit 1).trans (by simp), (hbit 2).trans (by simp),
      fun k hk => (hbit k).trans (by simp [show k ≠ 0 by omega, show k ≠ 1 by omega, show k ≠ 2 by omega])⟩

end Sys2Proof.Machine
end

section
/-! PROOFS. The family 40_command_control.md: acceptance of a command word (R60) and NOP (R64). -/

namespace Sys2Proof.Machine

/-! ## Acceptance of a command word (40_command_control.md R60) -/

section
variable {s : State} (w : Word)

/-- CMD is in the control group, so the BUSY lock does not stand before its own check (20_memory.md R33). -/
theorem hostWrite_cmd (s : State) : hostWrite 0x1C 4 w s = writeCmd w s :=
  hostWrite_control .cmd w rfl

/-- A faulted core takes no command before its acknowledgement. -/
theorem writeCmd_err (he : s.err = true) : writeCmd w s = (s, .busError) := by
  rw [writeCmd, he, Bool.or_true, if_pos rfl]

theorem writeCmd_accepted (hb : s.busy = false) (he : s.err = false) : writeCmd w s = (s.accept w, .ok) := by
  rw [writeCmd, hb, he]; rfl

theorem hostWrite_cmd_refused (h : s.busy = true ∨ s.err = true) :
    hostWrite 0x1C 4 w s = (s, .busError) := by
  rw [hostWrite_cmd]
  exact h.elim (writeCmd_busy w) (writeCmd_err w)

theorem hostWrite_cmd_accepted (hb : s.busy = false) (he : s.err = false) :
    hostWrite 0x1C 4 w s = (s.accept w, .ok) :=
  (hostWrite_cmd w s).trans (writeCmd_accepted w hb he)

end

/-- Settles O44: refused by either flag, and otherwise the state is `s.accept w`, which writes those fields only. -/
theorem commandAcceptance : Obligations.CommandAcceptance :=
  fun s w => ⟨hostWrite_cmd_refused w, fun hb he => ⟨s.accept w, hostWrite_cmd_accepted w hb he, rfl⟩⟩

/-! ## NOP (40_command_control.md R64) -/

/-- Settles O13: NOP commits the empty updates, which write neither memory nor any operand register. -/
theorem nopRule : Obligations.NopRule := by
  intro s
  have hexec : exec .nop s = .next (s.commit {}) := exec_eq .nop s
  have hword : decode 0x00000000#32 = .command .nop := Laws.RoundTrip.nop.1
  exact ⟨⟨s.commit {}, hexec, succeeded_commit {} s, commit_sameBuf rfl s, commit_sameKey rfl s,
    commit_len s {}, commit_klen s {}, commit_zpad s {}, commit_opad s {}⟩, hword, hostWrite_cmd_refused _⟩

end Sys2Proof.Machine
end

section
/-! PROOFS. The family 41_bit_expander.md: EXPAND (R70), SHRINK (R71, R72) and the two in a row (R73). -/

namespace Sys2Proof.Machine

/-- The live cells of a state are the items of its sequence. -/
theorem getElem?_of_bufSeq_eq {s : State} {xs : List Bit} {k : Nat} (h : s.bufSeq = xs) (hk : k < s.len.toNat) :
    xs[k]? = some (s.bufCell k) := by
  rw [← h, bufSeq_getElem?, if_pos hk]

/-- A command whose outcome is a fault takes it (60_exceptions.md R119). -/
theorem exec_of_fault {i : Instr} {s : State} {c : Cause} {info : Word} (h : resultOf i s = .fault c info) :
    ∃ t, exec i s = .next t ∧ Faulted c.code info s t :=
  ⟨s.takeFault c info, by rw [exec_eq, h, complete_fault], faulted_takeFault c info s⟩

/-- A command whose outcome is a success commits its updates (40_command_control.md R63). -/
theorem exec_of_success {i : Instr} {s : State} {u : Updates} (h : resultOf i s = .success u) :
    exec i s = .next (s.commit u) := by
  rw [exec_eq, h, complete_success]

/-! ## What EXPAND and SHRINK commit -/

/-- The writes EXPAND lists at its commit (41_bit_expander.md R70). -/
def expandUpdates (s : State) : Updates where
  buf := some (expandSeq s.bufSeq (signed32 s.exp).toNat)
  len := some (toReg (s.len.toNat * (signed32 s.exp).toNat))

/-- The writes SHRINK lists at its commit (41_bit_expander.md R71). -/
def shrinkUpdates (s : State) : Updates where
  buf := some (shrinkSeq s.cfg.tieBit s.bufSeq (signed32 s.exp).toNat)
  len := some (toReg (ceilDiv s.len.toNat (signed32 s.exp).toNat))

section
variable {s : State} (he : 0 < signed32 s.exp)
include he

theorem exec_expand_success (hc : s.len.toNat * (signed32 s.exp).toNat ≤ s.cfg.nmax) :
    exec .expand s = .next (s.commit (expandUpdates s)) :=
  exec_of_success (expandResult_success he hc)

theorem exec_shrink_success : exec .shrink s = .next (s.commit (shrinkUpdates s)) :=
  exec_of_success (shrinkResult_success he)

/-- The number of windows fits a register in every state. -/
theorem commit_shrinkUpdates_len : (s.commit (shrinkUpdates s)).len.toNat =
    ceilDiv s.len.toNat (signed32 s.exp).toNat :=
  toReg_toNat ((ceilDiv_le_self _ (by omega)).trans_lt s.len.isLt)

theorem commit_shrinkUpdates_bufSeq : (s.commit (shrinkUpdates s)).bufSeq =
    shrinkSeq s.cfg.tieBit s.bufSeq (signed32 s.exp).toNat :=
  commit_bufSeq rfl (by simpa using commit_shrinkUpdates_len he)

end

section
variable {s : State} (hc : s.len.toNat * (signed32 s.exp).toNat < 2 ^ 32)
include hc

theorem commit_expandUpdates_len : (s.commit (expandUpdates s)).len.toNat =
    s.len.toNat * (signed32 s.exp).toNat :=
  toReg_toNat hc

theorem commit_expandUpdates_bufSeq : (s.commit (expandUpdates s)).bufSeq =
    expandSeq s.bufSeq (signed32 s.exp).toNat :=
  commit_bufSeq rfl (by simpa using commit_expandUpdates_len hc)

end

/-! ## EXPAND (41_bit_expander.md R70) -/

/-- The CAPACITY info as the saturated product of the signed factor (60_exceptions.md R117). -/
theorem saturate32_mul_toNat (n : Nat) {e : Int} (he : 0 < e) :
    saturate32 (n * e.toNat) = BitVec.ofInt 32 (min (n * e) (2 ^ 32 - 1)) := by
  lift e to Nat using he.le
  rw [Int.toNat_natCast, saturate32, toReg, ← BitVec.ofInt_natCast]
  push_cast
  rfl

/-- Settles O14: the three cases of the test, and in the last the items of the expanded sequence. -/
theorem expandRule : Obligations.ExpandRule := by
  rintro s ⟨-, hmax⟩ e n
  have hprod : 0 < e → ((n * e.toNat : Nat) : Int) = n * e := fun he => by
    rw [Nat.cast_mul, Int.toNat_of_nonneg he.le]
  refine ⟨fun he => ?_, fun he hc => ?_, fun he hc => ?_⟩
  · exact exec_of_fault (i := .expand) (expandResult_nonpos he)
  · have hr := expandResult_capacity he (Int.ofNat_lt.1 (by rwa [hprod he]))
    rw [saturate32_mul_toNat n he] at hr
    exact exec_of_fault (i := .expand) hr
  · have hcap : n * e.toNat ≤ s.cfg.nmax := Int.ofNat_le.1 (by rwa [hprod he])
    have hword : n * e.toNat < 2 ^ 32 := by omega
    have hlen := commit_expandUpdates_len hword
    have hseq := commit_expandUpdates_bufSeq hword
    refine ⟨_, exec_expand_success he hcap, succeeded_commit _ s, by rw [hlen, hprod he], fun q hq => ?_,
      commit_sameKey rfl s, rfl, rfl, rfl⟩
    have hsrc : q / e.toNat < n := Nat.div_lt_of_lt_mul (by rwa [hlen, Nat.mul_comm] at hq)
    have hitem := getElem?_of_bufSeq_eq hseq hq
    rw [expandSeq_getElem? _ (by omega), getElem?_of_bufSeq_eq rfl hsrc] at hitem
    exact (Option.some.inj hitem).symm

/-! ## SHRINK (41_bit_expander.md R71, R72) -/

/-- Window `q` holds the cells from `q * e` on, up to the window's length or the end of the sequence. -/
theorem window_bufSeq (s : State) (e q : Nat) : window s.bufSeq e q =
    (List.range (min e (s.len.toNat - q * e))).map fun j => s.bufCell (q * e + j) := by
  apply List.ext_getElem (by simp)
  intro j h1 h2
  simp [window, State.bufSeq]

/-- The majority of a window of the live sequence, as the count of its cells that hold 1. -/
theorem windowBit_window_bufSeq (tie : Bit) (s : State) (e q : Nat) :
    let m := min e (s.len.toNat - q * e)
    windowBit tie (window s.bufSeq e q) = majority tie (onesIn s (q * e) m) (m - onesIn s (q * e) m) := by
  have hones : (window s.bufSeq e q).count true = onesIn s (q * e) (min e (s.len.toNat - q * e)) := by
    rw [window_bufSeq, List.count, List.countP_map, List.countP_eq_length_filter, onesIn]
    simp [Function.comp_def]
  rw [windowBit, hones, window_length, bufSeq_length]

/-- Settles O15: the windows are those of the ceiling division, and each new cell is the majority of its window. -/
theorem shrinkRule : Obligations.ShrinkRule := by
  intro s e n
  refine ⟨fun he => ?_, fun he => ?_⟩
  · exact exec_of_fault (i := .shrink) (shrinkResult_nonpos he)
  · have hpos : 0 < e := Int.pos_iff_toNat_pos.1 he
    have hlen : (s.commit (shrinkUpdates s)).len.toNat = ceilDiv n e := commit_shrinkUpdates_len he
    refine ⟨_, exec_shrink_success he, succeeded_commit _ s, ?_, fun q hq => ?_, fun q hq => ?_,
      commit_sameKey rfl s, rfl, rfl, rfl⟩
    · rw [hlen]
      exact le_ceilDiv_mul n hpos
    · rw [hlen]
      exact ceilDiv_le hpos hq
    · have hwin : q * e < n := lt_of_lt_ceilDiv hpos (hlen ▸ hq)
      have hitem := getElem?_of_bufSeq_eq (commit_shrinkUpdates_bufSeq he) hq
      rw [shrinkSeq_getElem? _ _ _ _ (by rwa [bufSeq_length, ← hlen]), windowBit_window_bufSeq] at hitem
      exact ⟨lt_min hpos (Nat.sub_pos_of_lt hwin), (Option.some.inj hitem).symm⟩

/-! ## EXPAND then SHRINK (41_bit_expander.md R73) -/

/-- SHRINK after EXPAND with the same factor: the length and the sequence come back. -/
theorem shrink_expand {s : State} (he : 0 < signed32 s.exp)
    (hc : s.len.toNat * (signed32 s.exp).toNat < 2 ^ 32) :
    let t := s.commit (expandUpdates s)
    let u := t.commit (shrinkUpdates t)
    u.bufSeq = s.bufSeq ∧ u.len = s.len := by
  intro t u
  have hpos : 0 < (signed32 s.exp).toNat := Int.pos_iff_toNat_pos.1 he
  have het : 0 < signed32 t.exp := he
  constructor
  · rw [commit_shrinkUpdates_bufSeq het, commit_expandUpdates_bufSeq hc]
    exact shrinkSeq_expandSeq _ _ hpos
  · apply BitVec.eq_of_toNat_eq
    rw [commit_shrinkUpdates_len het, commit_expandUpdates_len hc]
    exact ceilDiv_mul _ hpos

/-- A commit that writes the sequence and LEN as they are leaves both. -/
theorem commit_own_sequence {s : State} {u : Updates} (h : u = { buf := some s.bufSeq, len := some s.len }) :
    (s.commit u).bufSeq = s.bufSeq ∧ (s.commit u).len = s.len := by
  subst h
  exact ⟨commit_bufSeq rfl (by simp), rfl⟩

/-- Settles O25: the inverse is `shrink_expand`; at EXP = 1 the sequence and the length are each their own image. -/
theorem expandThenShrink : Obligations.ExpandThenShrink := by
  rintro s ⟨-, hmax⟩ he
  refine ⟨fun hc => ?_, ⟨_, exec_shrink_success he, commit_shrinkUpdates_len he⟩, fun h1 hc => ?_⟩
  · have hword : s.len.toNat * (signed32 s.exp).toNat < 2 ^ 32 := by omega
    exact ⟨_, _, exec_expand_success he hc, exec_shrink_success he, commit_expandUpdates_len hword,
      shrink_expand he hword⟩
  · have hone : (signed32 s.exp).toNat = 1 := by rw [h1]; rfl
    have hexp : expandUpdates s = { buf := some s.bufSeq, len := some s.len } := by
      simp [expandUpdates, hone]
    have hshr : shrinkUpdates s = { buf := some s.bufSeq, len := some s.len } := by
      simp [shrinkUpdates, hone]
    obtain ⟨hseq, hlen⟩ := commit_own_sequence hexp
    exact ⟨_, _, exec_expand_success he (by rwa [hone, Nat.mul_one]), hseq, hlen,
      exec_shrink_success he, commit_own_sequence hshr⟩

end Sys2Proof.Machine
end

section
/-! PROOFS. The family 42_bit_permutation.md: PERMUTE (R80, R82), the cursor (R81), the positions of a key (R83)
and REPLAY (R84). -/

namespace Sys2Proof.Machine

/-! ## The cursor step (42_bit_permutation.md R81) -/

section
variable {c : Nat} (i : Nat)

@[simp] theorem cursorStep_unset : cursorStep c none i = (some i, none) := rfl

variable {j : Nat}

/-- At the end of a chunk the cursor starts over. -/
theorem cursorStep_chunk_end (h : (j + 1) % c = 0) : cursorStep c (some j) i = (some i, none) := if_pos h

/-- Inside a chunk the cursor swaps, at the positions computed from the old `j`, and advances. -/
theorem cursorStep_swap (h : (j + 1) % c ≠ 0) :
    cursorStep c (some j) i = (some (j + 1), some (j + 1, i + 1)) := if_neg h

end

/-- Settles O22: the three cases of the step, and the bound of the swaps from an unset cursor. -/
theorem cursorStepRule : Obligations.CursorStepRule :=
  ⟨fun _ i => cursorStep_unset i, fun _ _ i => cursorStep_chunk_end i, fun _ _ i => cursorStep_swap i,
    fun c ps hps => swapsFrom_bounds c ps none hps (by simp)⟩

/-- A cursor below a transition index does not pass it. -/
theorem cursorStep_fst_le {c i : Nat} {cur : Cursor} (hcur : ∀ j, cur = some j → j < i) :
    ∀ j, (cursorStep c cur i).1 = some j → j ≤ i := by
  intro j' hj'
  cases cur with
  | none =>
    rw [cursorStep_unset, Option.some.injEq] at hj'
    exact hj'.ge
  | some j =>
    have hlt : j < i := hcur j rfl
    by_cases hmod : (j + 1) % c = 0
    · rw [cursorStep_chunk_end i hmod, Option.some.injEq] at hj'
      exact hj'.ge
    · rw [cursorStep_swap i hmod, Option.some.injEq] at hj'
      omega

/-- After rising transition indexes below `i` the cursor is below `i`. -/
theorem cursorAfter_lt (c : Nat) {ps : List Nat} {i : Nat} (hr : ps.Pairwise (· < ·)) (hlt : ∀ p ∈ ps, p < i) :
    ∀ j, cursorAfter c none ps = some j → j < i := by
  induction ps using List.reverseRecOn generalizing i with
  | nil => simp [cursorAfter]
  | append_singleton ps p ih =>
    obtain ⟨hr', -, hps⟩ := List.pairwise_append.1 hr
    have hbelow := ih hr' fun q hq => hps q hq p (List.mem_singleton.2 rfl)
    rw [cursorAfter_append]
    exact fun j hj => (cursorStep_fst_le hbelow j hj).trans_lt (hlt p (by simp))

/-- Two positions of the sequence swapped are exchanged (00_scope.md section 5.1). -/
theorem exchanged_swapAt {x : List Bit} {a b : Nat} (ha : a < x.length) (hb : b < x.length) :
    Exchanged a b x (swapAt x a b) :=
  swapAt_getElem? x ha hb

/-- The cursor step and its swap are one move of R81, at a transition of the sequence above the cursor. -/
theorem cursorMove_cursorStep (c : Nat) {cur : Cursor} {i : Nat} {x : List Bit}
    (hcur : ∀ j, cur = some j → j < i) (hi : i + 1 < x.length) :
    CursorMove c cur i (cursorStep c cur i).1 x (undoSwaps (cursorStep c cur i).2.toList x) := by
  cases cur with
  | none => exact ⟨rfl, rfl⟩
  | some j =>
    have hlt : j < i := hcur j rfl
    unfold CursorMove
    by_cases hmod : (j + 1) % c = 0
    · rw [cursorStep_chunk_end i hmod]
      simp [hmod]
    · rw [cursorStep_swap i hmod]
      simpa [hmod, undoSwaps] using exchanged_swapAt (by omega) hi

/-! ## PERMUTE (42_bit_permutation.md R80, R82) -/

section
variable (c : Nat) {st : Scan} {i : Nat}

/-- An index that is no transition. -/
theorem scanStep_of_eq (h : st.seq[i]? = st.seq[i + 1]?) :
    scanStep c st i = { st with steps := st.steps + 1 } :=
  if_neg (not_not_intro h)

/-- A transition: its swap, if there is one, is applied to the sequence as it stands. -/
theorem scanStep_of_ne (h : st.seq[i]? ≠ st.seq[i + 1]?) :
    scanStep c st i = {
      seq := undoSwaps (cursorStep c st.cursor i).2.toList st.seq
      key := st.key ++ [st.steps]
      steps := 0
      cursor := (cursorStep c st.cursor i).1 } := by
  rw [scanStep, if_pos h]
  rcases cursorStep c st.cursor i with ⟨cur', _ | ⟨a, b⟩⟩ <;> rfl

end

/-- When the scan comes to index `i` its cursor is below `i`: it has met transitions below `i` only. -/
theorem scanUpTo_cursor_lt (s : List Bit) (c i : Nat) : ∀ j, (scanUpTo s c i).cursor = some j → j < i := by
  have hbelow : ∀ p ∈ keyPositions (scanUpTo s c i).key, p < i := by
    rw [keyPositions_scanUpTo]
    exact fun p hp => List.mem_range.1 (List.mem_of_mem_filter hp)
  rw [(ScanInv.range c s i).cursor]
  exact cursorAfter_lt c (keyPositionsFrom_rising 0 _) hbelow

/-- The scan at a transition, in the words of R80 to R82. -/
theorem scanUpTo_transition {s : List Bit} (c : Nat) {i : Nat} (hi : i + 1 < s.length)
    (h : (scanUpTo s c i).seq[i]? ≠ (scanUpTo s c i).seq[i + 1]?) :
    (scanUpTo s c (i + 1)).key = (scanUpTo s c i).key ++ [(scanUpTo s c i).steps] ∧
      (scanUpTo s c (i + 1)).steps = 0 ∧
      CursorMove c (scanUpTo s c i).cursor i (scanUpTo s c (i + 1)).cursor
        (scanUpTo s c i).seq (scanUpTo s c (i + 1)).seq := by
  have hlen : (scanUpTo s c i).seq.length = s.length := (ScanInv.range c s i).perm.length_eq
  rw [scanUpTo_succ, scanStep_of_ne c h]
  exact ⟨rfl, rfl, cursorMove_cursorStep c (scanUpTo_cursor_lt s c i) (by rwa [hlen])⟩

/-- The writes PERMUTE lists at its commit (42_bit_permutation.md R82). -/
def permuteUpdates (s : State) : Updates where
  buf := some (permuteCore s.bufSeq (signed32 s.chunk).toNat).1
  key := some ((permuteCore s.bufSeq (signed32 s.chunk).toNat).2.map toReg)
  klen := some (toReg (permuteCore s.bufSeq (signed32 s.chunk).toNat).2.length)

section
variable (s : State)

theorem exec_permute_success (h : 0 < signed32 s.chunk) :
    exec .permute s = .next (s.commit (permuteUpdates s)) :=
  exec_of_success (permuteResult_success h)

/-- The recorded key has a length that fits a register, in every state. -/
theorem permuteCore_key_length_lt (c : Nat) : (permuteCore s.bufSeq c).2.length < 2 ^ 32 := by
  have hbound := permuteCore_key_bound s.bufSeq c
  rw [bufSeq_length] at hbound
  have := s.len.isLt
  omega

/-- The recorded key has entries that fit a word, in every state. -/
theorem permuteCore_entry_lt (c : Nat) : ∀ k ∈ (permuteCore s.bufSeq c).2, k < 2 ^ 32 := by
  intro k hk
  have hbound := permuteCore_entry_bound s.bufSeq c hk
  rw [bufSeq_length] at hbound
  have := s.len.isLt
  omega

theorem commit_permuteUpdates_bufSeq : (s.commit (permuteUpdates s)).bufSeq =
    (permuteCore s.bufSeq (signed32 s.chunk).toNat).1 :=
  commit_bufSeq rfl (by simp [permuteUpdates])

theorem commit_permuteUpdates_keySeq : (s.commit (permuteUpdates s)).keySeq =
    (permuteCore s.bufSeq (signed32 s.chunk).toNat).2 :=
  commit_keySeq rfl rfl (permuteCore_key_length_lt s _) (permuteCore_entry_lt s _)

theorem commit_permuteUpdates_klen : (s.commit (permuteUpdates s)).klen.toNat =
    (permuteCore s.bufSeq (signed32 s.chunk).toNat).2.length :=
  toReg_toNat (permuteCore_key_length_lt s _)

end

/-- Settles O16: the trace is `scanUpTo`, whose last state is what PERMUTE commits. -/
theorem permuteRule : Obligations.PermuteRule := by
  intro s c n
  refine ⟨fun hc => ?_, fun hc => ?_⟩
  · exact exec_of_fault (i := .permute) (permuteResult_nonpos hc)
  · have hlen : s.bufSeq.length = n := bufSeq_length s
    have hlast : permuteScan s.bufSeq c = scanUpTo s.bufSeq c (n - 1) := by rw [permuteScan, hlen]
    refine ⟨_, scanUpTo s.bufSeq c, exec_permute_success s hc, succeeded_commit _ s, scanUpTo_zero _ _,
      fun i hi => ⟨fun heq => ?_, scanUpTo_transition c (hlen ▸ hi)⟩, ?_, ?_, ?_, rfl, rfl, rfl⟩
    · rw [scanUpTo_succ, scanStep_of_eq c heq]
    · rw [← hlast]; exact commit_permuteUpdates_bufSeq s
    · rw [← hlast]; exact commit_permuteUpdates_keySeq s
    · rw [← hlast]; exact commit_permuteUpdates_klen s

/-! ## The positions of a key (42_bit_permutation.md R83) -/

/-- The first position is the first entry. -/
theorem keyPositions_getElem?_zero (key : List Nat) : (keyPositions key)[0]? = key[0]? := by
  cases key with
  | nil => rfl
  | cons k ks => simp [keyPositions, keyPositionsFrom]

/-- The last position is the sum of the entries and of the steps between them. -/
theorem keyPositions_last {key : List Nat} (h : key ≠ []) :
    (keyPositions key).getD (key.length - 1) 0 + 1 = key.sum + key.length := by
  obtain ⟨ks, k, rfl⟩ := (List.eq_nil_or_concat' key).resolve_left h
  simp [keyPositions_append]
  omega

/-- Well-formedness by the last position. -/
theorem keyWellFormed_iff_last (key : List Nat) (n : Nat) :
    keyWellFormed key n = true ↔ key = [] ∨ (keyPositions key).getD (key.length - 1) 0 + 2 ≤ n := by
  rw [keyWellFormed_iff_sum]
  refine or_congr_right' fun hne => ?_
  rw [← keyPositions_last hne]

/-- Well-formedness position by position. -/
theorem keyWellFormed_iff_getD (key : List Nat) (n : Nat) :
    keyWellFormed key n = true ↔ ∀ r, r < key.length → (keyPositions key).getD r 0 + 2 ≤ n := by
  rw [keyWellFormed_iff_all, List.forall_mem_iff_getElem, ← keyPositions_length key]
  exact forall₂_congr fun r hr => by rw [List.getD_eq_getElem _ _ hr]

/-- No position is as large as the sum and the length together. -/
theorem lt_of_mem_keyPositions {key : List Nat} {q : Nat} (hq : q ∈ keyPositions key) :
    q < key.sum + key.length := by
  have hwf : keyWellFormed key (key.sum + key.length + 1) = true :=
    (keyWellFormed_iff_sum key _).2 (Or.inr le_rfl)
  have := (keyWellFormed_iff_all key _).1 hwf q hq
  omega

/-- With at most one bit even the first position is too large. -/
theorem badEntry_eq_zero (key : List Nat) {n : Nat} (hn : n ≤ 1) : badEntry key n = 0 := by
  cases key with
  | nil => rfl
  | cons k ks =>
    have hfirst : n < k + 2 := by omega
    simp [badEntry, keyPositions, keyPositionsFrom, List.findIdx_cons, hfirst]

/-- The bound of the sums: 2^24 entries of 32 bits reach 2^56 at most. -/
theorem keyPositions_lt {key : List Nat} (hlen : key.length ≤ 2 ^ 24) (hk : ∀ k ∈ key, k < 2 ^ 32) :
    ∀ q ∈ keyPositions key, q < 2 ^ 57 := by
  intro q hq
  have hsum : key.sum ≤ key.length * (2 ^ 32 - 1) :=
    List.sum_le_card_nsmul key _ fun k h => Nat.le_pred_of_lt (hk k h)
  have hlt := lt_of_mem_keyPositions hq
  omega

/-- Settles O23: the recurrence, the forms of well-formedness and the least bad index, each by its lemma. -/
theorem keyPositionsRule : Obligations.KeyPositionsRule := by
  intro key n p
  exact ⟨keyPositions_length key, fun _ => keyPositions_getElem?_zero key, keyPositionsFrom_step 0 key,
    keyPositionsFrom_rising 0 key, keyWellFormed_iff_last key n, keyWellFormed_iff_getD key n,
    keyWellFormed_iff_sum key n, badEntry_spec, badEntry_eq_zero key, keyPositions_lt,
    fun s c hkey => (congrArg keyPositions hkey).trans (keyPositions_permuteCore s c)⟩

/-! ## REPLAY (42_bit_permutation.md R84) -/

/-- The sequence once the swaps from the `r`-th transition of `ps` on are undone, the cursor having come
forward over the first `r`. -/
def replayFrom (c : Nat) (ps : List Nat) (s : List Bit) (r : Nat) : List Bit :=
  undoSwaps (swapsFrom c (cursorAfter c none (ps.take r)) (ps.drop r)) s

section
variable (c : Nat) (ps : List Nat) (s : List Bit)

/-- Once every swap is undone the sequence is what `ReplayCore` returns. -/
theorem replayFrom_zero (key : List Nat) : replayFrom c (keyPositions key) s 0 = replayCore s key c := rfl

/-- Past the last transition nothing is undone yet. -/
theorem replayFrom_end : replayFrom c ps s ps.length = s := by
  simp [replayFrom, swapsFrom]

@[simp] theorem replayFrom_length (r : Nat) : (replayFrom c ps s r).length = s.length :=
  undoSwaps_length _ s

variable {ps} {r : Nat} (hr : r < ps.length)
include hr

theorem cursorAfter_take_succ : cursorAfter c none (ps.take (r + 1)) =
    (cursorStep c (cursorAfter c none (ps.take r)) ps[r]).1 := by
  rw [List.take_succ_eq_append_getElem hr, cursorAfter_append]

/-- Undoing from `r` on is undoing from `r + 1` on, and then the swap at the `r`-th transition. -/
theorem replayFrom_eq_undo_succ : replayFrom c ps s r =
    undoSwaps (cursorStep c (cursorAfter c none (ps.take r)) ps[r]).2.toList (replayFrom c ps s (r + 1)) := by
  rw [replayFrom, List.drop_eq_getElem_cons hr, swapsFrom, undoSwaps_append, replayFrom,
    cursorAfter_take_succ c hr]

/-- Before the `r`-th of rising transitions the cursor is below it. -/
theorem cursorAfter_take_lt (hrise : ps.Pairwise (· < ·)) :
    ∀ j, cursorAfter c none (ps.take r) = some j → j < ps[r] := by
  refine cursorAfter_lt c (hrise.sublist (List.take_sublist r ps)) fun p hp => ?_
  obtain ⟨k, hk, rfl⟩ := List.mem_take_iff_getElem.1 hp
  exact List.pairwise_iff_getElem.1 hrise k r (by omega) hr (by omega)

/-- The cursor's move at the `r`-th transition, forward from `cur r` to `cur (r + 1)`, takes the sequence in
which it is not yet undone to the one in which it is. -/
theorem cursorMove_replayFrom (hrise : ps.Pairwise (· < ·)) (hi : ps[r] + 1 < s.length) :
    CursorMove c (cursorAfter c none (ps.take r)) ps[r] (cursorAfter c none (ps.take (r + 1)))
      (replayFrom c ps s (r + 1)) (replayFrom c ps s r) := by
  rw [cursorAfter_take_succ c hr, replayFrom_eq_undo_succ c s hr]
  exact cursorMove_cursorStep c (cursorAfter_take_lt c hr hrise) (by rwa [replayFrom_length])

end

/-- The writes REPLAY lists at its commit (42_bit_permutation.md R84). -/
def replayUpdates (s : State) : Updates where
  buf := some (replayCore s.bufSeq s.keySeq (signed32 s.chunk).toNat)

theorem exec_replay_success {s : State} (h : 0 < signed32 s.chunk)
    (hk : keyWellFormed s.keySeq s.len.toNat = true) :
    exec .replay s = .next (s.commit (replayUpdates s)) :=
  exec_of_success (replayResult_success h hk)

theorem commit_replayUpdates_bufSeq (s : State) : (s.commit (replayUpdates s)).bufSeq =
    replayCore s.bufSeq s.keySeq (signed32 s.chunk).toNat :=
  commit_bufSeq rfl (by simp [replayUpdates])

/-- Settles O17: the least bad position is `badEntry`; without one the cursors are those of the forward pass
over the positions, and `replayFrom` is the sequence between two undone swaps. -/
theorem replayRule : Obligations.ReplayRule := by
  intro s c n p
  have hplen : p.length = s.keySeq.length := keyPositions_length s.keySeq
  refine ⟨fun hc => ?_, fun hc bad hbad hover hbefore => ?_, fun hc hall => ?_⟩
  · exact exec_of_fault (i := .replay) (replayResult_nonpos hc)
  · obtain ⟨hmal, hent⟩ := badEntry_eq (hplen ▸ hbad) hover hbefore
    have hres := replayResult_malformed hc hmal
    rw [hent] at hres
    exact exec_of_fault (i := .replay) hres
  · have hwf : keyWellFormed s.keySeq n = true := (keyWellFormed_iff_getD _ _).2 (hplen ▸ hall)
    refine ⟨_, fun r => cursorAfter c none (p.take r), replayFrom c p s.bufSeq, exec_replay_success hc hwf,
      succeeded_commit _ s, hplen.trans (keySeq_length s), rfl, replayFrom_end c p s.bufSeq, fun r hr => ?_,
      (commit_replayUpdates_bufSeq s).trans (replayFrom_zero c _ _).symm, commit_sameKey rfl s, rfl, rfl, rfl, rfl⟩
    have hvalid := hall r hr
    rw [List.getD_eq_getElem _ _ hr] at hvalid ⊢
    exact cursorMove_replayFrom c s.bufSeq hr (keyPositionsFrom_rising 0 _) (by rw [bufSeq_length]; exact hvalid)

end Sys2Proof.Machine
end

section
/-! PROOFS. The family 43_run_length_padder.md: the tail runs (R90), PAD (R91), DEPAD (R92) and their
properties (R93). -/

namespace Sys2Proof.Machine

/-! ## The last two runs (43_run_length_padder.md R90) -/

section
variable {s : List Bit} {k : Nat}

theorem getElem?_last_tailRuns (hs : s ≠ []) : s[s.length - 1]? = some (tailRuns s).first := by
  rw [← List.getLast?_eq_getElem?, tailRuns_first hs]

theorem tailRuns_l1_pos (hs : s ≠ []) : 0 < (tailRuns s).l1 := by
  rw [tailRuns_l1]
  exact trailingRun_pos (tailRuns_first hs)

theorem take_tailRuns_length (s : List Bit) : (s.take (tailRuns s).d).length = (tailRuns s).d := by
  rw [List.length_take, Nat.min_eq_left (tailRuns_d_le s)]

/-- The penultimate run holds `not first`. -/
theorem getElem?_in_penultimate_run (hlo : (tailRuns s).d - (tailRuns s).l2 ≤ k) (hk : k < (tailRuns s).d) :
    s[k]? = some (!(tailRuns s).first) := by
  rw [← List.getElem?_take_of_lt hk]
  apply getElem?_in_trailingRun
  · rwa [take_tailRuns_length, ← tailRuns_l2]
  · rwa [take_tailRuns_length]

/-- The penultimate run cannot be extended downwards. -/
theorem getElem?_before_penultimate_run (h : (tailRuns s).l2 < (tailRuns s).d) :
    s[(tailRuns s).d - (tailRuns s).l2 - 1]? = some (tailRuns s).first := by
  have hbefore := getElem?_before_trailingRun (!(tailRuns s).first) (s.take (tailRuns s).d)
  rw [← tailRuns_l2, take_tailRuns_length, Bool.not_not] at hbefore
  exact (List.getElem?_take_of_lt (by omega)).symm.trans (hbefore h)

end

/-- Settles O24: the trailing run of the sequence, and of the part before it the trailing run of the other
polarity. -/
theorem tailRunsRule : Obligations.TailRunsRule := by
  intro s hs T n
  have hsum : T.d + T.l1 = n := tailRuns_d_add_l1 s
  have hl1 : 0 < T.l1 := tailRuns_l1_pos hs
  have hl2 : T.l2 ≤ T.d := tailRuns_l2_le s
  refine ⟨getElem?_last_tailRuns hs, by omega, fun k => getElem?_in_trailingRun _ s, fun hd => ?_, by omega, hl1,
    fun hd => by omega, fun hd => ?_⟩
  · have hpos : 0 < T.l2 := tailRuns_l2_pos hd
    exact getElem?_in_penultimate_run (show T.d - T.l2 ≤ T.d - 1 by omega) (show T.d - 1 < T.d by omega)
  · exact ⟨tailRuns_l2_pos hd, hl2, fun k => getElem?_in_penultimate_run, getElem?_before_penultimate_run⟩

/-! ## PAD (43_run_length_padder.md R91) -/

section
variable (s : List Bit) (c : Nat)

/-- The empty sequence has no trailing run to pad. -/
theorem tailPad_eq : tailPad s c = if s.length = 0 then 0 else padBits (tailRuns s).l1 c := by
  split
  · next h => rw [List.length_eq_zero_iff.1 h]; exact padBits_of_mod (Nat.zero_mod c)
  · rfl

/-- The empty sequence has no penultimate run to pad: its diff index is 0. -/
theorem innerPad_eq : innerPad s c =
    if s.length = 0 ∨ (tailRuns s).d = 0 then 0 else padBits (tailRuns s).l2 c := by
  have hd : s.length = 0 ∨ (tailRuns s).d = 0 ↔ (tailRuns s).d = 0 := by
    have := tailRuns_d_le s
    omega
  simp only [hd]
  rfl

/-- The count of zeros, for the empty sequence too. -/
theorem padCore_zp_eq : (padCore s c).zp =
    if s.length ≠ 0 ∧ (tailRuns s).first = true then innerPad s c else tailPad s c := by
  by_cases hs : s = []
  · simp [hs, tailPad_eq]
  · rw [padCore_zp hs]
    cases (tailRuns s).first <;> simp [hs]

/-- The count of ones, for the empty sequence too. -/
theorem padCore_op_eq : (padCore s c).op =
    if s.length ≠ 0 ∧ (tailRuns s).first = true then tailPad s c else innerPad s c := by
  by_cases hs : s = []
  · simp [hs, innerPad_eq]
  · rw [padCore_op hs]
    cases (tailRuns s).first <;> simp [hs]

/-- The padded length by the two runs. -/
theorem padCore_length_eq : (padCore s c).out.length = s.length + tailPad s c + innerPad s c := by
  rw [padCore_length, padCore_zp_eq, padCore_op_eq]
  split <;> omega

/-- The four parts of a padded sequence: the inner bits stand at the diff index, the others at the end. -/
theorem padCore_out_at_diff : (padCore s c).out =
    s.take (tailRuns s).d ++ List.replicate (innerPad s c) (!(tailRuns s).first) ++ s.drop (tailRuns s).d ++
      List.replicate (tailPad s c) (tailRuns s).first := by
  by_cases hs : s = []
  · simp [hs, innerPad_eq, tailPad_eq]
  · have hn : ¬ s.length = 0 := by simpa using hs
    rw [padCore, if_neg hn]
    rfl

/-- A padded sequence cell by cell. The tests of its parts and those of the statement agree by arithmetic. -/
theorem padCore_getElem? {k : Nat} (hk : k < (padCore s c).out.length) : (padCore s c).out[k]? =
    if k < (tailRuns s).d then s[k]?
    else if k < (tailRuns s).d + innerPad s c then some (!(tailRuns s).first)
    else if k < s.length + innerPad s c then s[k - innerPad s c]?
    else some (tailRuns s).first := by
  have hd := tailRuns_d_le s
  rw [padCore_length_eq] at hk
  simp only [padCore_out_at_diff, List.append_assoc, List.getElem?_append, take_tailRuns_length,
    List.length_replicate, List.length_drop, List.getElem?_replicate, List.getElem?_drop]
  split_ifs <;> try omega
  · exact List.getElem?_take_of_lt ‹_›
  · rfl
  · congr 1
    omega
  · rfl

end

/-- The writes PAD lists at its commit (43_run_length_padder.md R91). -/
def padUpdates (s : State) : Updates where
  buf := some (padCore s.bufSeq (signed32 s.chunk).toNat).out
  len := some (toReg (padCore s.bufSeq (signed32 s.chunk).toNat).out.length)
  zpad := some (toReg (padCore s.bufSeq (signed32 s.chunk).toNat).zp)
  opad := some (toReg (padCore s.bufSeq (signed32 s.chunk).toNat).op)

section
variable {s : State}

section
variable (hc : 0 < signed32 s.chunk)
include hc

theorem exec_pad_success (hcap : (padCore s.bufSeq (signed32 s.chunk).toNat).out.length ≤ s.cfg.nmax) :
    exec .pad s = .next (s.commit (padUpdates s)) :=
  exec_of_success (padResult_success hc hcap)

/-- Both counts are below CHUNK, so they fit a register in every state. -/
theorem padCore_counts_lt_chunk : (padCore s.bufSeq (signed32 s.chunk).toNat).zp < 2 ^ 31 ∧
    (padCore s.bufSeq (signed32 s.chunk).toNat).op < 2 ^ 31 := by
  obtain ⟨-, hpos, hmax⟩ := signed32_pos hc
  obtain ⟨hz, ho⟩ := padCore_counts_lt s.bufSeq (c := (signed32 s.chunk).toNat) (by omega)
  rw [signed32_toNat hc] at hz ho ⊢
  omega

theorem commit_padUpdates_zpad : (s.commit (padUpdates s)).zpad.toNat =
    (padCore s.bufSeq (signed32 s.chunk).toNat).zp :=
  toReg_toNat (by have := padCore_counts_lt_chunk hc; omega)

theorem commit_padUpdates_opad : (s.commit (padUpdates s)).opad.toNat =
    (padCore s.bufSeq (signed32 s.chunk).toNat).op :=
  toReg_toNat (by have := padCore_counts_lt_chunk hc; omega)

end

section
variable (hword : (padCore s.bufSeq (signed32 s.chunk).toNat).out.length < 2 ^ 32)
include hword

theorem commit_padUpdates_len : (s.commit (padUpdates s)).len.toNat =
    (padCore s.bufSeq (signed32 s.chunk).toNat).out.length :=
  toReg_toNat hword

theorem commit_padUpdates_bufSeq : (s.commit (padUpdates s)).bufSeq =
    (padCore s.bufSeq (signed32 s.chunk).toNat).out :=
  commit_bufSeq rfl (by simpa using commit_padUpdates_len hword)

/-- The committed cells, each as the old cell or the polarity it takes. -/
theorem commit_padUpdates_bufCell {k : Nat} (hk : k < (s.commit (padUpdates s)).len.toNat) :
    let T := tailRuns s.bufSeq
    let p2 := innerPad s.bufSeq (signed32 s.chunk).toNat
    (s.commit (padUpdates s)).bufCell k =
      if k < T.d then s.bufCell k
      else if k < T.d + p2 then !T.first
      else if k < s.len.toNat + p2 then s.bufCell (k - p2)
      else T.first := by
  intro T p2
  have hd : (tailRuns s.bufSeq).d ≤ s.len.toNat := bufSeq_length s ▸ tailRuns_d_le s.bufSeq
  have hitem := getElem?_of_bufSeq_eq (commit_padUpdates_bufSeq hword) hk
  rw [padCore_getElem? _ _ (by rwa [← commit_padUpdates_len hword]), bufSeq_length] at hitem
  refine Option.some.inj (hitem.symm.trans ?_)
  split_ifs
  · exact getElem?_of_bufSeq_eq rfl (by omega)
  · rfl
  · exact getElem?_of_bufSeq_eq rfl (by omega)
  · rfl

end
end

/-- Settles O18: `tailPad` and `innerPad` are the two numbers of pad bits, also for the empty sequence, and the
cells are those of the padded sequence. -/
theorem padRule : Obligations.PadRule := by
  rintro s ⟨-, hmax⟩ c n T p1 p2
  have hp1 : p1 = tailPad s.bufSeq c := by rw [tailPad_eq, bufSeq_length]; rfl
  have hp2 : p2 = innerPad s.bufSeq c := by rw [innerPad_eq, bufSeq_length]; rfl
  have hlen : (padCore s.bufSeq c).out.length = n + p1 + p2 := by
    rw [padCore_length_eq, bufSeq_length, hp1, hp2]
  refine ⟨fun hc => ?_, fun hc hover => ?_, fun hc hcap => ?_⟩
  · exact exec_of_fault (i := .pad) (padResult_nonpos hc)
  · have hres := padResult_capacity hc (hlen ▸ hover)
    rw [hlen] at hres
    exact exec_of_fault (i := .pad) hres
  · have hword : (padCore s.bufSeq c).out.length < 2 ^ 32 := by omega
    refine ⟨_, exec_pad_success hc (hlen ▸ hcap), succeeded_commit _ s, (commit_padUpdates_len hword).trans hlen,
      fun k hk => ?_, ?_, ?_, commit_sameKey rfl s, rfl⟩
    · rw [hp2]
      exact commit_padUpdates_bufCell hword hk
    · rw [commit_padUpdates_zpad hc, padCore_zp_eq, bufSeq_length, hp1, hp2]
    · rw [commit_padUpdates_opad hc, padCore_op_eq, bufSeq_length, hp1, hp2]

/-! ## DEPAD (43_run_length_padder.md R92) -/

/-- The backward scan over two parts: the second part starts with the counts the first has left. -/
theorem depadBackward_append (l r : List Bit) (z o : Nat) : depadBackward (l ++ r) z o =
    depadBackward l z o ++ depadBackward r (z - l.count false) (o - l.count true) := by
  induction l generalizing z o with
  | nil => rfl
  | cons b l ih =>
    cases b with
    | false => cases z <;> simp [depadBackward, ih]
    | true => cases o <;> simp [depadBackward, ih]

/-- The first bit of a sequence, which the scan meets last, is kept when the bits after it take up the count of
its polarity. -/
theorem depadCore_cons (b : Bit) (l : List Bit) (z o : Nat) : depadCore (b :: l) z o =
    if (if b then o ≤ l.count true else z ≤ l.count false) then b :: depadCore l z o else depadCore l z o := by
  rw [depadCore, List.reverse_cons, depadBackward_append, List.count_reverse, List.count_reverse, depadCore]
  cases b with
  | false => by_cases hz : z ≤ l.count false <;> simp [depadBackward, hz]
  | true => by_cases ho : o ≤ l.count true <;> simp [depadBackward, ho]

section
variable {s : State} {k m : Nat}

/-- The cells of the live range above `k`, counted by their content. -/
theorem countAbove_eq_count (b : Bit) (h : k + 1 + m = s.len.toNat) :
    countAbove s b k = ((List.range' (k + 1) m).map s.bufCell).count b := by
  have hrange : (List.range s.len.toNat).filter (fun j => decide (k < j)) = List.range' (k + 1) m := by
    have hico := List.Ico.filter_le 0 s.len.toNat (k + 1)
    rw [List.Ico.zero_bot, Nat.zero_max, List.Ico, ← h, Nat.add_sub_cancel_left] at hico
    rw [← h]
    exact hico
  rw [countAbove, ← hrange, List.count, List.countP_map, List.countP_filter, List.countP_eq_length_filter]
  simp [Bool.and_comm]

/-- Whether DEPAD keeps cell `k`: the cells above it take up the count of its polarity
(43_run_length_padder.md R92). -/
def State.depadKeeps (s : State) (k : Nat) : Bool :=
  if s.bufCell k then decide (s.opad.toNat ≤ countAbove s true k)
  else decide (s.zpad.toNat ≤ countAbove s false k)

theorem depadKeeps_iff (h : k + 1 + m = s.len.toNat) : s.depadKeeps k = true ↔
    if s.bufCell k then s.opad.toNat ≤ ((List.range' (k + 1) m).map s.bufCell).count true
    else s.zpad.toNat ≤ ((List.range' (k + 1) m).map s.bufCell).count false := by
  rw [State.depadKeeps, countAbove_eq_count true h, countAbove_eq_count false h]
  split <;> exact decide_eq_true_iff

/-- Depadding the live cells from `k` on. -/
theorem depadCore_map_range' (h : k + m = s.len.toNat) :
    depadCore ((List.range' k m).map s.bufCell) s.zpad.toNat s.opad.toNat =
      ((List.range' k m).filter s.depadKeeps).map s.bufCell := by
  induction m generalizing k with
  | zero => rfl
  | succ m ih =>
    have hnext : k + 1 + m = s.len.toNat := by omega
    rw [List.range'_succ, List.map_cons, depadCore_cons, ih hnext, List.filter_cons,
      if_congr (depadKeeps_iff hnext).symm rfl rfl]
    split <;> rfl

end

/-- Depadding the working sequence keeps the cells `depadKeeps` selects. -/
theorem depadCore_bufSeq (s : State) : depadCore s.bufSeq s.zpad.toNat s.opad.toNat =
    ((List.range s.len.toNat).filter s.depadKeeps).map s.bufCell := by
  rw [State.bufSeq, List.range_eq_range']
  exact depadCore_map_range' (Nat.zero_add _)

/-- The writes DEPAD lists at its commit (43_run_length_padder.md R92). -/
def depadUpdates (s : State) : Updates where
  buf := some (depadCore s.bufSeq s.zpad.toNat s.opad.toNat)
  len := some (toReg (depadCore s.bufSeq s.zpad.toNat s.opad.toNat).length)

theorem exec_depad_success {s : State} (hc : 0 < signed32 s.chunk) (hz : s.zpad.toNat < signed32 s.chunk)
    (ho : s.opad.toNat < signed32 s.chunk) : exec .depad s = .next (s.commit (depadUpdates s)) :=
  exec_of_success (depadResult_success hc hz ho)

/-- The depadded length fits a register in every state. -/
theorem commit_depadUpdates_len (s : State) : (s.commit (depadUpdates s)).len.toNat =
    (depadCore s.bufSeq s.zpad.toNat s.opad.toNat).length :=
  toReg_toNat (((depadCore_length_le _ _ _).trans_eq (bufSeq_length s)).trans_lt s.len.isLt)

theorem commit_depadUpdates_bufSeq (s : State) : (s.commit (depadUpdates s)).bufSeq =
    depadCore s.bufSeq s.zpad.toNat s.opad.toNat :=
  commit_bufSeq rfl (by simpa using commit_depadUpdates_len s)

/-- Settles O19: the three tests in order, and the kept cells are those `depadKeeps` selects. -/
theorem depadRule : Obligations.DepadRule := by
  intro s c
  refine ⟨fun hc => ?_, fun hc hz => ?_, fun hc hz ho => ?_, fun hc hz ho => ?_⟩
  · exact exec_of_fault (i := .depad) (depadResult_nonpos hc)
  · exact exec_of_fault (i := .depad) (depadResult_zpad hc hz)
  · exact exec_of_fault (i := .depad) (depadResult_opad hc hz ho)
  · exact ⟨_, exec_depad_success hc hz ho, succeeded_commit _ s,
      (commit_depadUpdates_bufSeq s).trans (depadCore_bufSeq s), commit_sameKey rfl s, rfl, rfl, rfl⟩

/-! ## PAD and DEPAD together (43_run_length_padder.md R93) -/

/-- PAD of a sequence that is its own padding commits the sequence and LEN as they are, and counts of 0. -/
theorem commit_padUpdates_padded {t : State}
    (h : padCore t.bufSeq (signed32 t.chunk).toNat = { out := t.bufSeq, zp := 0, op := 0 }) :
    let u := t.commit (padUpdates t)
    u.bufSeq = t.bufSeq ∧ u.len = t.len ∧ u.zpad = 0 ∧ u.opad = 0 := by
  have hupd : padUpdates t = { buf := some t.bufSeq, len := some t.len, zpad := some 0, opad := some 0 } := by
    simp only [padUpdates, h, bufSeq_length, toReg_self]
    rfl
  rw [hupd]
  exact ⟨commit_bufSeq rfl (by simp), rfl, rfl, rfl⟩

section
variable {s : State} (hc : 0 < signed32 s.chunk)
include hc

/-- The counts PAD leaves are in DEPAD's range. -/
theorem exec_depad_pad :
    let t := s.commit (padUpdates s)
    exec .depad t = .next (t.commit (depadUpdates t)) := by
  intro t
  obtain ⟨hz, ho⟩ := padCore_counts_lt s.bufSeq (Int.pos_iff_toNat_pos.1 hc)
  rw [← commit_padUpdates_zpad hc, Int.lt_toNat] at hz
  rw [← commit_padUpdates_opad hc, Int.lt_toNat] at ho
  exact exec_depad_success hc hz ho

variable (hword : (padCore s.bufSeq (signed32 s.chunk).toNat).out.length < 2 ^ 32)
include hword

/-- The padded sequence and the counts are what DEPAD needs to give the sequence and LEN back. -/
theorem depad_pad :
    let t := s.commit (padUpdates s)
    let v := t.commit (depadUpdates t)
    v.bufSeq = s.bufSeq ∧ v.len = s.len := by
  intro t v
  have hcore : depadCore t.bufSeq t.zpad.toNat t.opad.toNat = s.bufSeq := by
    rw [commit_padUpdates_bufSeq hword, commit_padUpdates_zpad hc, commit_padUpdates_opad hc]
    exact depadCore_padCore _ _
  refine ⟨(commit_depadUpdates_bufSeq t).trans hcore, BitVec.eq_of_toNat_eq ?_⟩
  rw [commit_depadUpdates_len, hcore, bufSeq_length]

/-- A padded sequence is its own padding, with nothing to add. -/
theorem padCore_commit_padUpdates :
    let t := s.commit (padUpdates s)
    padCore t.bufSeq (signed32 t.chunk).toNat = { out := t.bufSeq, zp := 0, op := 0 } := by
  intro t
  rw [commit_padUpdates_bufSeq hword]
  exact padCore_padCore _ (Int.pos_iff_toNat_pos.1 hc)

theorem exec_pad_pad (hcap : (padCore s.bufSeq (signed32 s.chunk).toNat).out.length ≤ s.cfg.nmax) :
    let t := s.commit (padUpdates s)
    exec .pad t = .next (t.commit (padUpdates t)) := by
  intro t
  refine exec_pad_success hc ?_
  rw [padCore_commit_padUpdates hc hword, commit_padUpdates_bufSeq hword]
  exact hcap

/-- PAD twice: idempotent on the sequence, but not on the counts. -/
theorem pad_pad :
    let t := s.commit (padUpdates s)
    let u := t.commit (padUpdates t)
    u.bufSeq = t.bufSeq ∧ u.len = t.len ∧ u.zpad = 0 ∧ u.opad = 0 :=
  commit_padUpdates_padded (padCore_commit_padUpdates hc hword)

end

/-- Settles O30: DEPAD and a second PAD both run on what PAD commits, and the rest is what `padCore` returns. -/
theorem padProperties : Obligations.PadProperties := by
  rintro s ⟨-, hmax⟩ hc c hcap
  have hpos : 0 < c := Int.pos_iff_toNat_pos.1 hc
  obtain ⟨hzp, hop⟩ := padCore_counts_lt s.bufSeq hpos
  have hlen := padCore_length s.bufSeq c
  obtain ⟨hzeros, hones⟩ := padCore_count s.bufSeq c
  rw [bufSeq_length] at hlen
  have hfits : (padCore s.bufSeq c).out.length ≤ s.cfg.nmax := by omega
  have hword : (padCore s.bufSeq c).out.length < 2 ^ 32 := by omega
  have htlen := commit_padUpdates_len hword
  have htseq := commit_padUpdates_bufSeq hword
  obtain ⟨hvseq, hvlen⟩ := depad_pad hc hword
  obtain ⟨huseq, hulen, huzp, huop⟩ := pad_pad hc hword
  rw [← commit_padUpdates_zpad hc] at hzp hlen hzeros
  rw [← commit_padUpdates_opad hc] at hop hlen hones
  rw [← htseq] at hzeros hones
  refine ⟨_, _, _, exec_pad_success hc hfits, exec_pad_pad hc hword hfits, exec_depad_pad hc,
    succeeded_commit _ _, succeeded_commit _ _, succeeded_commit _ _, hvseq, hvlen, htlen.trans hlen,
    by omega, hzp, hop, fun hne => ?_, fun _ => ?_, hzeros, hones, huseq, hulen, huzp, huop⟩
  · have hs : s.bufSeq ≠ [] := fun h => hne (by rw [htseq, h, padCore_nil])
    rw [htseq]
    exact padCore_tail_mod hs hpos
  · rw [htseq]
    exact padCore_take c

end Sys2Proof.Machine
end

section
/-! PROOFS. The family 44_group_ungroup.md: GROUP (R100) and UNGROUP (R101), each against the two commands it
chains. -/

namespace Sys2Proof.Machine

/-! ## GROUP (44_group_ungroup.md R100) -/

/-- The state PERMUTE commits, on which R100 runs PAD. -/
def State.permuted (s : State) : State := s.commit (permuteUpdates s)

/-- What GROUP commits to BUF and the counts: the padding of the permuted sequence, both with CHUNK. -/
def State.groupPadded (s : State) : Padded :=
  padCore (permuteCore s.bufSeq (signed32 s.chunk).toNat).1 (signed32 s.chunk).toNat

/-- The writes GROUP lists at its one commit: those PAD lists on the permuted state, and PERMUTE's key. -/
def groupUpdates (s : State) : Updates :=
  { padUpdates s.permuted with key := (permuteUpdates s).key, klen := (permuteUpdates s).klen }

section
variable (s : State)

/-- PAD after PERMUTE pads what GROUP pads. -/
theorem padCore_permuted : padCore s.permuted.bufSeq (signed32 s.permuted.chunk).toNat = s.groupPadded :=
  congrArg (padCore · _) (commit_permuteUpdates_bufSeq s)

theorem groupPadded_length : s.groupPadded.out.length = s.len.toNat + s.groupPadded.zp + s.groupPadded.op := by
  rw [State.groupPadded, padCore_length, permuteCore_length, bufSeq_length]

/-- GROUP and PERMUTE leave the same SwapKey. -/
theorem commit_groupUpdates_keySeq : (s.commit (groupUpdates s)).keySeq =
    (permuteCore s.bufSeq (signed32 s.chunk).toNat).2 :=
  commit_permuteUpdates_keySeq s

theorem commit_groupUpdates_klen : (s.commit (groupUpdates s)).klen.toNat =
    (permuteCore s.bufSeq (signed32 s.chunk).toNat).2.length :=
  commit_permuteUpdates_klen s

end

section
variable {s : State} (hc : 0 < signed32 s.chunk)
include hc

theorem exec_group_success (hcap : s.groupPadded.out.length ≤ s.cfg.nmax) :
    exec .group s = .next (s.commit (groupUpdates s)) := by
  refine exec_of_success ((groupResult_success hc hcap).trans ?_)
  rw [groupUpdates, padUpdates, padCore_permuted]
  rfl

theorem exec_pad_permuted_success (hcap : s.groupPadded.out.length ≤ s.cfg.nmax) :
    exec .pad s.permuted = .next (s.permuted.commit (padUpdates s.permuted)) :=
  exec_pad_success hc (by rwa [padCore_permuted])

/-- PAD after PERMUTE asks for the length GROUP asks for. -/
theorem padResult_permuted_capacity (hover : s.cfg.nmax < s.groupPadded.out.length) :
    padResult s.permuted = .fault .capacity (saturate32 s.groupPadded.out.length) := by
  rw [padResult_capacity (s := s.permuted) hc (by rwa [padCore_permuted]), padCore_permuted]

theorem commit_groupUpdates_zpad : (s.commit (groupUpdates s)).zpad.toNat = s.groupPadded.zp := by
  rw [← padCore_permuted]
  exact commit_padUpdates_zpad (s := s.permuted) hc

theorem commit_groupUpdates_opad : (s.commit (groupUpdates s)).opad.toNat = s.groupPadded.op := by
  rw [← padCore_permuted]
  exact commit_padUpdates_opad (s := s.permuted) hc

end

section
variable {s : State} (hword : s.groupPadded.out.length < 2 ^ 32)
include hword

theorem commit_groupUpdates_len : (s.commit (groupUpdates s)).len.toNat = s.groupPadded.out.length := by
  rw [← padCore_permuted] at hword ⊢
  exact commit_padUpdates_len hword

theorem commit_groupUpdates_bufSeq : (s.commit (groupUpdates s)).bufSeq = s.groupPadded.out := by
  refine commit_bufSeq ?_ (commit_groupUpdates_len hword)
  rw [groupUpdates, padUpdates, padCore_permuted]

/-- GROUP and PERMUTE followed by PAD leave the same sequence. -/
theorem commit_groupUpdates_bufSeq_eq_pad :
    (s.commit (groupUpdates s)).bufSeq = (s.permuted.commit (padUpdates s.permuted)).bufSeq := by
  rw [commit_groupUpdates_bufSeq hword, commit_padUpdates_bufSeq (by rwa [padCore_permuted]), padCore_permuted]

end

/-- Settles O20: PAD after PERMUTE works on `groupPadded`, as GROUP does, so the two meet CAPACITY together and
otherwise commit the same operands. -/
theorem groupRule : Obligations.GroupRule := by
  rintro s ⟨-, hmax⟩ c g r
  have hword (hcap : s.groupPadded.out.length ≤ s.cfg.nmax) : s.groupPadded.out.length < 2 ^ 32 := by omega
  refine ⟨fun hc => ?_, fun hc hover => ?_, fun hc hcap => ?_, fun hc => ?_⟩
  · exact exec_of_fault (i := .group) (groupResult_nonpos hc)
  · exact exec_of_fault (i := .group) (groupResult_capacity hc hover)
  · exact ⟨_, exec_group_success hc hcap, succeeded_commit _ s, commit_groupUpdates_bufSeq (hword hcap),
      commit_groupUpdates_len (hword hcap), groupPadded_length s, commit_groupUpdates_keySeq s,
      commit_groupUpdates_klen s, commit_groupUpdates_zpad hc, commit_groupUpdates_opad hc⟩
  · rcases Nat.lt_or_ge s.cfg.nmax s.groupPadded.out.length with hover | hcap
    · obtain ⟨t2, hpad, hfault2⟩ := exec_of_fault (i := .pad) (padResult_permuted_capacity hc hover)
      obtain ⟨t, hgroup, hfault⟩ := exec_of_fault (i := .group) (groupResult_capacity hc hover)
      exact ⟨s.permuted, t2, t, exec_permute_success s hc, hpad, hgroup, Or.inr ⟨_, hfault2, hfault⟩⟩
    · exact ⟨s.permuted, _, _, exec_permute_success s hc, exec_pad_permuted_success hc hcap,
        exec_group_success hc hcap, Or.inl ⟨succeeded_commit _ _, succeeded_commit _ s,
          commit_groupUpdates_bufSeq_eq_pad (hword hcap), rfl, rfl, rfl, rfl, rfl⟩⟩

/-! ## UNGROUP (44_group_ungroup.md R101) -/

/-- The state DEPAD commits, on which R101 runs REPLAY. -/
def State.depadded (s : State) : State := s.commit (depadUpdates s)

/-- The writes UNGROUP lists at its one commit: DEPAD's length, and the sequence REPLAY lists on the depadded
state. -/
def ungroupUpdates (s : State) : Updates :=
  { depadUpdates s with buf := (replayUpdates s.depadded).buf }

section
variable (s : State)

theorem commit_ungroupUpdates_len : (s.commit (ungroupUpdates s)).len.toNat =
    (depadCore s.bufSeq s.zpad.toNat s.opad.toNat).length :=
  commit_depadUpdates_len s

/-- UNGROUP and DEPAD followed by REPLAY leave the same sequence. -/
theorem commit_ungroupUpdates_bufSeq_eq_replay :
    (s.commit (ungroupUpdates s)).bufSeq = (s.depadded.commit (replayUpdates s.depadded)).bufSeq := by
  rw [commit_replayUpdates_bufSeq]
  refine commit_bufSeq rfl ?_
  rw [replayCore_length, bufSeq_length]
  rfl

theorem commit_ungroupUpdates_bufSeq : (s.commit (ungroupUpdates s)).bufSeq =
    replayCore (depadCore s.bufSeq s.zpad.toNat s.opad.toNat) s.keySeq (signed32 s.chunk).toNat := by
  rw [commit_ungroupUpdates_bufSeq_eq_replay, commit_replayUpdates_bufSeq, State.depadded,
    commit_depadUpdates_bufSeq]
  rfl

end

section
variable {s : State} (hc : 0 < signed32 s.chunk)
include hc

/-- REPLAY after DEPAD checks the same key against the depadded length. -/
theorem replayResult_depadded_malformed
    (hk : keyWellFormed s.keySeq (depadCore s.bufSeq s.zpad.toNat s.opad.toNat).length = false) :
    replayResult s.depadded = .fault .keyMalformed
      (toReg (badEntry s.keySeq (depadCore s.bufSeq s.zpad.toNat s.opad.toNat).length)) := by
  rw [← commit_depadUpdates_len] at hk ⊢
  exact replayResult_malformed (s := s.depadded) hc hk

theorem exec_replay_depadded_success
    (hk : keyWellFormed s.keySeq (depadCore s.bufSeq s.zpad.toNat s.opad.toNat).length = true) :
    exec .replay s.depadded = .next (s.depadded.commit (replayUpdates s.depadded)) := by
  rw [← commit_depadUpdates_len] at hk
  exact exec_replay_success (s := s.depadded) hc hk

theorem exec_ungroup_success (hz : s.zpad.toNat < signed32 s.chunk) (ho : s.opad.toNat < signed32 s.chunk)
    (hk : keyWellFormed s.keySeq (depadCore s.bufSeq s.zpad.toNat s.opad.toNat).length = true) :
    exec .ungroup s = .next (s.commit (ungroupUpdates s)) := by
  refine exec_of_success ((ungroupResult_success hc hz ho hk).trans ?_)
  rw [ungroupUpdates, replayUpdates, State.depadded, commit_depadUpdates_bufSeq]
  rfl

end

/-- Settles O21: REPLAY after DEPAD reads the sequence, the length and the key UNGROUP works on, so the two meet
KEY_MALFORMED together and otherwise commit the same sequence and length. -/
theorem ungroupRule : Obligations.UngroupRule := by
  intro s c s1 p
  have hplen : p.length = s.keySeq.length := keyPositions_length s.keySeq
  refine ⟨fun hc => ?_, fun hc hz => ?_, fun hc hz ho => ?_, fun hc hz ho bad hbad hover hbefore => ?_,
    fun hc hz ho hall => ?_, fun hc hz ho => ?_⟩
  · exact exec_of_fault (i := .ungroup) (ungroupResult_nonpos hc)
  · exact exec_of_fault (i := .ungroup) (ungroupResult_zpad hc hz)
  · exact exec_of_fault (i := .ungroup) (ungroupResult_opad hc hz ho)
  · obtain ⟨hmal, hent⟩ := badEntry_eq (hplen ▸ hbad) hover hbefore
    have hres := ungroupResult_malformed hc hz ho hmal
    rw [hent] at hres
    exact exec_of_fault (i := .ungroup) hres
  · have hwf : keyWellFormed s.keySeq s1.length = true := (keyWellFormed_iff_getD _ _).2 (hplen ▸ hall)
    exact ⟨_, exec_ungroup_success hc hz ho hwf, succeeded_commit _ s, commit_ungroupUpdates_bufSeq s,
      commit_ungroupUpdates_len s, commit_sameKey rfl s, rfl, rfl, rfl⟩
  · cases hk : keyWellFormed s.keySeq s1.length with
    | false =>
      obtain ⟨t2, hreplay, hfault2⟩ := exec_of_fault (i := .replay) (replayResult_depadded_malformed hc hk)
      obtain ⟨t, hungroup, hfault⟩ := exec_of_fault (i := .ungroup) (ungroupResult_malformed hc hz ho hk)
      exact ⟨s.depadded, t2, t, exec_depad_success hc hz ho, hreplay, hungroup, Or.inr ⟨_, hfault2, hfault⟩⟩
    | true =>
      exact ⟨s.depadded, _, _, exec_depad_success hc hz ho, exec_replay_depadded_success hc hk,
        exec_ungroup_success hc hz ho hk, Or.inl ⟨succeeded_commit _ _, succeeded_commit _ s,
          commit_ungroupUpdates_bufSeq_eq_replay s, rfl⟩⟩

end Sys2Proof.Machine
end

section
/-! PROOFS. The family 60_exceptions.md: illegal command words (R112), the acknowledgement of a fault (R120), refused
transactions (R122) and the interrupt level (R124). -/

namespace Sys2Proof

/-- The illegal words are those with a reserved bit set or an opcode above 0x08 (30_encoding.md R52). -/
theorem decode_illegal_iff (w : Word) :
    (∃ why, decode w = .illegal why) ↔ rsvField w ≠ 0 ∨ 8 < (opcField w).toNat := by
  by_cases hrsv : rsvField w = 0
  · have hdec : decode w = decodeOpc (opcField w).toNat := if_neg (not_not.2 hrsv)
    rw [hdec, decodeOpc_illegal]
    exact ⟨Or.inr, fun h => h.resolve_left (not_not.2 hrsv)⟩
  · exact ⟨fun _ => Or.inl hrsv, fun _ => ⟨_, if_pos hrsv⟩⟩

end Sys2Proof

namespace Sys2Proof.Machine

/-! ## Illegal command words (60_exceptions.md R112) -/

/-- An illegal word in CMD faults before any operand is read. -/
theorem completeCommand_illegal {s : State} {why : Illegal} (h : decode s.cmd = .illegal why) :
    completeCommand s = .next (s.takeFault .illegalCmd s.cmd) := by
  rw [completeCommand, h]; rfl

/-- Settles O3: the word decodes to no command, and its completion takes the one fault of such words. -/
theorem illegalWordFaults : Obligations.IllegalWordFaults := by
  intro s hw
  obtain ⟨why, hill⟩ := (decode_illegal_iff s.cmd).2 hw
  exact ⟨_, completeCommand_illegal hill, faulted_takeFault .illegalCmd s.cmd s⟩

/-! ## Every transaction is a refusal or an access of one register (20_memory.md R32, R33) -/

theorem hostRead_cases (off : Offset) (size : Nat) (s : State) :
    hostRead off size s = (s, .busError) ∨ ∃ r : Reg, hostRead off size s = readReg r s := by
  unfold hostRead
  split
  · exact Or.inl rfl
  · next r _ =>
    split
    · exact Or.inl rfl
    · exact Or.inr ⟨r, rfl⟩

theorem hostWrite_cases (off : Offset) (size : Nat) (v : Word) (s : State) :
    hostWrite off size v s = (s, .busError) ∨
      ∃ r : Reg, off = r.offset ∧ size = 4 ∧ hostWrite off size v s = writeReg r v s := by
  unfold hostWrite
  split
  · exact Or.inl rfl
  · next r hsel =>
    obtain ⟨hoff, hsize⟩ := offset_of_selectReg hsel
    split
    · exact Or.inl rfl
    · exact Or.inr ⟨r, hoff, hsize, rfl⟩

/-! ## Refused transactions (60_exceptions.md R122) -/

section
variable {s t : State}

/-- The shape of every check a register makes: refused in the old state, or answered in another one. -/
theorem state_of_refused {p : Prop} [Decidable p] {u : State} {a : Reply} (ha : a ≠ .busError)
    (h : (if p then (s, .busError) else (u, a)) = (t, Reply.busError)) : t = s := by
  split at h
  · exact (Prod.mk.inj h).1.symm
  · exact absurd (Prod.mk.inj h).2 ha

/-- Only the data ports refuse a read. -/
theorem readReg_busError {r : Reg} (h : readReg r s = (t, .busError)) : t = s := by
  cases r with
  | bdata | kdata => exact state_of_refused Reply.noConfusion h
  | _ => cases h

/-- CMD, the lengths and the data ports refuse a write. -/
theorem writeReg_busError {r : Reg} {v : Word} (h : writeReg r v s = (t, .busError)) : t = s := by
  cases r with
  | cmd | len | klen | bdata | kdata => exact state_of_refused Reply.noConfusion h
  | _ => cases h

end

/-- Settles O37: a transaction is refused before it reaches a register, or by the register's own check; both
leave the state. -/
theorem busErrorChangesNothing : Obligations.BusErrorChangesNothing := by
  intro x s t h
  cases x with
  | read off size =>
    rcases hostRead_cases off size s with href | ⟨r, hreg⟩
    · exact (Prod.mk.inj (h.symm.trans href)).1
    · exact readReg_busError (hreg.symm.trans h)
  | write off size v =>
    rcases hostWrite_cases off size v s with href | ⟨r, -, -, hreg⟩
    · exact (Prod.mk.inj (h.symm.trans href)).1
    · exact writeReg_busError (hreg.symm.trans h)

/-! ## What can clear ERR (60_exceptions.md R120) -/

section
variable {s : State}

/-- No read has an effect on ERR. -/
theorem readReg_err (r : Reg) : (readReg r s).1.err = s.err := by
  cases r with
  | bdata | kdata => simp only [readReg]; split <;> rfl
  | _ => rfl

/-- Of the writes only that of STATUS has an effect on ERR. -/
theorem writeReg_err {r : Reg} (v : Word) (hr : r ≠ .status) : (writeReg r v s).1.err = s.err := by
  cases r with
  | status => contradiction
  | cmd | len | klen | bdata | kdata => simp only [writeReg, writeCmd]; split <;> rfl
  | _ => rfl

@[simp] theorem writeStatus_err (v : Word) : (s.writeStatus v).err = (s.err && !v.getLsbD 2) := by
  rw [writeStatus_eq]

/-- STATUS is in the control group, so it is written whether the core is busy or not (20_memory.md R33). -/
theorem hostWrite_status (v : Word) : hostWrite 0x10 4 v s = (s.writeStatus v, .ok) :=
  hostWrite_control .status v rfl

/-- A completion never clears ERR (40_command_control.md R63, 60_exceptions.md R119). -/
theorem complete_err (r : Result) (he : s.err = true) : (s.complete r).err = true := by
  cases r with
  | fault => rfl
  | success => exact he

/-- A transaction that clears ERR acknowledges the fault. -/
theorem transact_clears_err {x : Transaction} (he : s.err = true) (ht : (transact x s).1.err = false) :
    ∃ v : Word, x = .write 0x10 4 v ∧ v.getLsbD 2 = true := by
  have changed : (transact x s).1.err ≠ s.err := by simp [he, ht]
  cases x with
  | read off size =>
    rcases hostRead_cases off size s with href | ⟨r, hreg⟩
    · exact absurd (congrArg (·.1.err) href) changed
    · exact absurd ((congrArg (·.1.err) hreg).trans (readReg_err r)) changed
  | write off size v =>
    rcases hostWrite_cases off size v s with href | ⟨r, rfl, rfl, hreg⟩
    · exact absurd (congrArg (·.1.err) href) changed
    · by_cases hr : r = .status
      · subst hr
        have hack : (s.writeStatus v).err = false := (congrArg (·.1.err) hreg).symm.trans ht
        exact ⟨v, rfl, by simpa [he] using hack⟩
      · exact absurd ((congrArg (·.1.err) hreg).trans (writeReg_err v hr)) changed

/-- A line that clears ERR is `rst` or begins with an acknowledgement. -/
theorem performLine_clears_err {l : Line} (he : s.err = true) (ht : (performLine l s).err = false) :
    l = .rst ∨ ∃ v : Word, l.first = some (.write 0x10 4 v) ∧ v.getLsbD 2 = true := by
  rcases performLine_cases l s with ⟨hnone, -⟩ | ⟨x, hsome, hp⟩
  · cases l with
    | rst => exact Or.inl rfl
    | _ => cases hnone
  · rw [hp] at ht
    obtain ⟨v, rfl, hv⟩ := transact_clears_err (s := s.tick) he ht
    exact Or.inr ⟨v, hsome, hv⟩

end

/-- Settles O45: the acknowledgement by `writeStatus_eq`, after which ERR refuses no command; and of the three
kinds of step only a line of the script can clear ERR. -/
theorem faultAcknowledgement : Obligations.FaultAcknowledgement := by
  refine ⟨fun s v hv => ⟨s.writeStatus v, hostWrite_status v, ?_, fun hb w => ?_⟩, fun s t hst he ht => ?_⟩
  · simp [writeStatus_eq, hv]
  · have hidle : (s.writeStatus v).busy = false := by rw [writeStatus_eq]; exact hb
    rw [hostWrite_cmd_accepted w hidle (by simp [hv])]
  · rcases step_cases s with ⟨-, r, hs, -⟩ | ⟨-, -, hs⟩ | ⟨-, l, ls, hscript, hs⟩ <;>
      rw [hs, Host.Outcome.next.injEq] at hst <;> subst hst
    · exact absurd ht (by simp [complete_err r he])
    · exact absurd ht (by simp [he])
    · exact ⟨l, ls, hscript, performLine_clears_err (s := { s with script := ls }) he ht⟩

/-! ## The interrupt level (60_exceptions.md R124) -/

section
variable (s : State)

/-- A completion sets DONE or ERR, so `irq` is then IE alone. -/
theorem complete_irq (r : Result) : (s.complete r).irq = s.ie := by
  cases r <;> simp [State.irq]

@[simp] theorem assertReset_irq : s.assertReset.irq = false := rfl

/-- Acceptance clears DONE; an accepting core has no ERR (40_command_control.md R60). -/
theorem accept_irq (w : Word) : (s.accept w).irq = (s.ie && s.err) := rfl

theorem writeCtrl_irq (v : Word) : (s.writeCtrl v).irq = (v.getLsbD 0 && (s.done || s.err)) := rfl

theorem writeStatus_irq (v : Word) :
    (s.writeStatus v).irq = (s.ie && (s.done && !v.getLsbD 1 || s.err && !v.getLsbD 2)) := by
  rw [writeStatus_eq]; rfl

end

/-- A command write that is answered Ok was accepted, by an unfaulted core (40_command_control.md R60). -/
theorem eq_accept_of_hostWrite_cmd {s t : State} {w : Word} (h : hostWrite 0x1C 4 w s = (t, .ok)) :
    s.err = false ∧ t = s.accept w := by
  by_cases hrefuse : s.busy = true ∨ s.err = true
  · rw [hostWrite_cmd_refused w hrefuse] at h
    cases h
  · obtain ⟨hb, he⟩ : s.busy = false ∧ s.err = false := by simpa using hrefuse
    rw [hostWrite_cmd_accepted w hb he] at h
    exact ⟨he, (Prod.mk.inj h).1.symm⟩

/-- Settles O46: the level after each operation that writes IE, DONE or ERR. -/
theorem interruptLevel : Obligations.InterruptLevel := by
  refine ⟨fun s hie => ?_, fun _ => rfl, assertReset_irq, fun s t w h => ?_, fun s v h1 h2 => ?_, fun s v => ?_⟩
  · obtain ⟨r, hcomplete, -⟩ := completeCommand_eq s
    exact ⟨s.complete r, hcomplete, (complete_irq s r).trans hie⟩
  · obtain ⟨he, rfl⟩ := eq_accept_of_hostWrite_cmd h
    rw [accept_irq, he, Bool.and_false]
  · rw [hostWrite_status, writeStatus_irq, h1, h2]; simp
  · have hctrl : hostWrite 0x0C 4 v s = (s.writeCtrl v, .ok) := hostWrite_control .ctrl v rfl
    rw [hctrl, writeCtrl_irq]

end Sys2Proof.Machine
end

section
/-! PROOFS. The rules about the whole machine: the command words (30_encoding.md R51, R52), the step and its
invariants, reset, what each command reads and writes, the inverses of the data path, and that commands and
script lines run to their end. -/

namespace Sys2Proof.Machine

/-! ## Command words (30_encoding.md R51, R52) -/

theorem decode_encode (i : Instr) : decode (encode i) = .command i := by
  cases i <;> rfl

/-- A word that decodes to a command has no reserved bit set, so it is its opcode. -/
theorem encode_of_decode {w : Word} {i : Instr} (h : decode w = .command i) : w = encode i := by
  by_cases hrsv : rsvField w = 0
  · have hdec : decode w = decodeOpc (opcField w).toNat := if_neg (not_not.2 hrsv)
    have hopc : (opcField w).toNat = (encode i).toNat := (decodeOpc_command _ i).1 (hdec.symm.trans h)
    have hlow : w.toNat < 2 ^ 8 := (rsvField_eq_zero w).1 hrsv
    apply BitVec.eq_of_toNat_eq
    rw [← hopc, opcField_toNat, Nat.mod_eq_of_lt hlow]
  · have hill : decode w = .illegal .reservedBits := if_pos hrsv
    cases hill.symm.trans h

/-- Settles O2: the encoder is inverted by cases, the decoder by its two fields, and the rest of the words are
illegal. -/
theorem decodeEncodeAgree : Obligations.DecodeEncodeAgree :=
  ⟨fun i _ => decode_encode i, fun _ _ => encode_of_decode, decode_illegal_iff⟩

/-- Settles O1: the nine rows of the opcode map are the words of the encoder. -/
theorem commandWordsDecode : Obligations.CommandWordsDecode :=
  ⟨decode_encode .nop, decode_encode .expand, decode_encode .shrink, decode_encode .permute,
    decode_encode .replay, decode_encode .pad, decode_encode .depad, decode_encode .group, decode_encode .ungroup⟩

/-! ## The step -/

theorem completesNow_eq_true {s : State} (hb : s.busy = true) (h : s.delay = 0 ∨ s.script = []) :
    s.completesNow = true := by
  simpa [State.completesNow, hb] using h

theorem completesNow_idle {s : State} (hb : s.busy = false) : s.completesNow = false := by
  rw [State.completesNow, hb, Bool.false_and]

theorem step_of_completesNow {s : State} (h : s.completesNow = true) : step s = completeCommand s :=
  if_pos h

/-- The line at the head of the script is performed when no completion comes first. -/
theorem step_of_line {s : State} {l : Line} {ls : List Line} (hc : s.completesNow = false)
    (hs : s.script = l :: ls) : step s = .next (performLine l { s with script := ls }) := by
  rw [step, hc, if_neg Bool.false_ne_true, hs]

/-- What a line other than `rst` does: its first transaction, and the host's record of it. -/
theorem performLine_of_transact {s t : State} {l : Line} {x : Transaction} {r : Reply}
    (hx : l.first = some x) (ht : transact x s.tick = (t, r)) :
    performLine l s = { t with script := l.rest r ++ s.script, log := (x, r) :: s.log } := by
  obtain ⟨hnone, -⟩ | ⟨y, hy, hp⟩ := performLine_cases l s
  · cases hnone.symm.trans hx
  · cases hy.symm.trans hx
    rw [hp, ht]

/-- Settles O4: such a core completes, and the completion of a word that decodes to a command is its `exec`. -/
theorem stepRunsDecodedCommand : Obligations.StepRunsDecodedCommand := by
  intro s hb h
  have hstep := step_of_completesNow (completesNow_eq_true hb h)
  refine ⟨hstep, fun i _ hi => ?_⟩
  rw [hstep, completeCommand, hi]

/-- Settles O5: a line of one transaction leaves nothing else to do. -/
theorem stepPerformsTransaction : Obligations.StepPerformsTransaction := by
  intro s x ls hc hs
  have hkeep := (transact_effect x { s with script := ls, delay := s.delay - 1 }).keeps.2.1
  refine ⟨_, _, rfl, ?_, hkeep⟩
  rw [step_of_line hc hs, performLine_of_transact (s := { s with script := ls }) rfl rfl]
  congr 2
  exact hkeep.symm

/-- Settles O6: an idle core completes nothing, and there is no line to perform. -/
theorem idleCoreKeepsState : Obligations.IdleCoreKeepsState := by
  intro s hb hs
  rw [step, completesNow_idle hb, if_neg Bool.false_ne_true, hs]

/-- Settles O7: each of the three kinds of step answers next. -/
theorem everyStepAnswersNext : Obligations.EveryStepAnswersNext := by
  intro s
  obtain ⟨-, r, hs, -⟩ | ⟨-, -, hs⟩ | ⟨-, l, ls, -, hs⟩ := step_cases s <;> exact ⟨_, hs⟩

/-! ## The invariant and the form of the memories (log entry 4) -/

/-- Settles O8: the parameters, the registers and the memories of the reset state. -/
theorem resetMeetsInvariant : Obligations.ResetMeetsInvariant :=
  ⟨legal_thisHardware, registerInv_reset, memoryInv_reset⟩

/-- A completion keeps both memories canonical when its updates, if it succeeds, fit the buffers. -/
theorem memoryInv_complete {s : State} {r : Result} (h : MemoryInv s) (hf : ∀ u, r = .success u → Fits s u) :
    MemoryInv (s.complete r) := by
  cases r with
  | fault c info => exact ⟨h.buf_wf, h.key_wf⟩
  | success u => exact memoryInv_commit h (hf u rfl)

/-- A line of the script, `rst` included, keeps both memories canonical. -/
theorem memoryInv_performLine {s : State} (l : Line) (h : MemoryInv s) : MemoryInv (performLine l s) := by
  obtain ⟨-, hp⟩ | ⟨x, -, hp⟩ := performLine_cases l s <;> rw [hp]
  · exact ⟨rfl, rfl⟩
  · have htick : MemoryInv s.tick := ⟨h.buf_wf, h.key_wf⟩
    obtain ⟨hbuf, hkey⟩ := memoryInv_hostEffect htick (transact_effect x s.tick)
    exact ⟨hbuf, hkey⟩

/-- Settles O10: each of the three kinds of step keeps the form; what a command commits fits the buffers. -/
theorem memoryFormKept : Obligations.MemoryFormKept := by
  intro s t hinv hst
  obtain ⟨-, r, hs, hr⟩ | ⟨-, -, hs⟩ | ⟨-, l, ls, -, hs⟩ := step_cases s <;>
    rw [hs, Host.Outcome.next.injEq] at hst <;> subst hst
  · refine memoryInv_complete hinv.mems fun u hu => ?_
    obtain ⟨i, -, hi⟩ | ⟨why, -, hi⟩ := hr
    · exact fits_of_success hinv.legal hinv.regs.len_le (hi.symm.trans hu)
    · cases hi.symm.trans hu
  · exact hinv.mems
  · exact memoryInv_performLine l ⟨hinv.mems.buf_wf, hinv.mems.key_wf⟩

/-! ## Reset (70_reset_and_hazards.md R130) -/

/-- `rst` leaves no cell and no entry listed: each holds the free value of the new draw. -/
theorem assertReset_free (s : State) :
    (∀ k, s.assertReset.bufCell k = Config.freeBit (s.bufEpoch + 1) k) ∧
      ∀ k, s.assertReset.keyEntry k = Config.freeEntry (s.keyEpoch + 1) k :=
  ⟨fun _ => rfl, fun _ => rfl⟩

/-- Settles O12: the step is `assertReset`, field by field; the two draws are new. -/
theorem resetAssertion : Obligations.ResetAssertion := by
  intro s ls hc hs
  have hstatus := statusWord_eq_zero (s := s.assertReset) rfl rfl rfl
  have herrcode := errcodeWord_eq_zero (s := s.assertReset) rfl
  have hctrl := ctrlWord_eq_zero (s := s.assertReset) rfl rfl
  exact ⟨_, step_of_line hc hs, rfl, rfl, rfl, rfl, rfl, rfl, rfl, hstatus, herrcode, rfl, hctrl, rfl, rfl, rfl,
    rfl, rfl, rfl, Nat.succ_ne_self _, Nat.succ_ne_self _, assertReset_free s⟩

/-! ## What each command reads (10_state.md section 7) -/

/-- The outcome of a command is a function of the operands it reads and of the parameters. -/
theorem resultOf_congr {i : Instr} {s s' : State} (h : ReadsAgree i s s') : resultOf i s = resultOf i s' := by
  obtain ⟨hcfg, hops⟩ := h
  cases i with
  | nop => rfl
  | expand =>
    obtain ⟨hlen, hseq, hexp⟩ := hops
    simp only [resultOf, expandResult, hcfg, hlen, hseq, hexp]
  | shrink =>
    obtain ⟨hlen, hseq, hexp⟩ := hops
    simp only [resultOf, shrinkResult, hcfg, hlen, hseq, hexp]
  | permute =>
    obtain ⟨-, hseq, hchunk⟩ := hops
    simp only [resultOf, permuteResult, hseq, hchunk]
  | replay =>
    obtain ⟨hlen, hseq, hchunk, -, hkey⟩ := hops
    simp only [resultOf, replayResult, hlen, hseq, hchunk, hkey]
  | pad =>
    obtain ⟨-, hseq, hchunk⟩ := hops
    simp only [resultOf, padResult, hcfg, hseq, hchunk]
  | depad =>
    obtain ⟨-, hseq, hchunk, hzpad, hopad⟩ := hops
    simp only [resultOf, depadResult, hseq, hchunk, hzpad, hopad]
  | group =>
    obtain ⟨-, hseq, hchunk⟩ := hops
    simp only [resultOf, groupResult, hcfg, hseq, hchunk]
  | ungroup =>
    obtain ⟨-, hseq, hchunk, -, hkey, hzpad, hopad⟩ := hops
    simp only [resultOf, ungroupResult, hseq, hchunk, hkey, hzpad, hopad]

/-- Settles O33: the one outcome is `resultOf`, which the operands determine. -/
theorem commandsReadOnlyTheirOperands : Obligations.CommandsReadOnlyTheirOperands := by
  intro i s s' h
  exact ⟨resultOf i s, exec_eq i s, by rw [exec_eq, resultOf_congr h]⟩

/-! ## What each command writes (10_state.md section 7) -/

/-- The write set of a command, as the updates it can list at a commit: `none` wherever it has no write, and
BUF always written but by NOP. -/
structure WriteSet (i : Instr) (u : Updates) : Prop where
  buf : i ≠ .nop → u.buf.isSome = true
  nop : i = .nop → u = {}
  len : i = .nop ∨ i = .permute ∨ i = .replay → u.len = none
  key : i = .permute ∨ i = .group → u.key.isSome = true
  noKey : i ≠ .permute → i ≠ .group → u.key = none ∧ u.klen = none
  noPad : i ≠ .pad → i ≠ .group → u.zpad = none ∧ u.opad = none

/-- Behind a test that faults, a success is that of the rest. -/
theorem success_of_ite {p : Prop} [Decidable p] {c : Cause} {info : Word} {r : Result} {u : Updates}
    (h : (if p then .fault c info else r) = .success u) : r = .success u := by
  split at h
  · cases h
  · exact h

/-- Every success of a command stays in its write set: behind its tests stand the updates themselves. -/
theorem writeSet_of_success {i : Instr} {s : State} {u : Updates} (h : resultOf i s = .success u) :
    WriteSet i u := by
  cases i with
  | nop =>
    cases h
    constructor <;> simp
  | expand | pad | group | replay =>
    cases success_of_ite (success_of_ite h)
    constructor <;> simp
  | shrink | permute =>
    cases success_of_ite h
    constructor <;> simp
  | depad =>
    cases success_of_ite (success_of_ite (success_of_ite h))
    constructor <;> simp
  | ungroup =>
    cases success_of_ite (success_of_ite (success_of_ite (success_of_ite h)))
    constructor <;> simp

/-- A commit leaves the operands outside the write set as they are. -/
theorem WriteSet.commit_frame {i : Instr} {u : Updates} (hw : WriteSet i u) (s : State) :
    (i ≠ .permute → i ≠ .group → (s.commit u).klen = s.klen ∧ SameKey s (s.commit u)) ∧
    (i ≠ .pad → i ≠ .group → (s.commit u).zpad = s.zpad ∧ (s.commit u).opad = s.opad) ∧
    (i = .nop ∨ i = .permute ∨ i = .replay → (s.commit u).len = s.len) ∧
    (i = .nop → SameBuf s (s.commit u)) := by
  refine ⟨fun hp hg => ?_, fun hp hg => ?_, fun hi => ?_, fun hi => ?_⟩
  · obtain ⟨hkey, hklen⟩ := hw.noKey hp hg
    exact ⟨by simp [hklen], commit_sameKey hkey s⟩
  · obtain ⟨hz, ho⟩ := hw.noPad hp hg
    exact ⟨by simp [hz], by simp [ho]⟩
  · simp [hw.len hi]
  · exact commit_sameBuf (by rw [hw.nop hi]) s

/-- Settles O34: a fault takes one of the causes and leaves every operand; a success commits what is in the
write set. -/
theorem commandsWriteOnlyTheirResults : Obligations.CommandsWriteOnlyTheirResults := by
  intro i s
  refine ⟨_, exec_eq i s, ?_⟩
  cases hr : resultOf i s with
  | fault c info =>
    have hf := faulted_takeFault c info s
    obtain ⟨h1, h6⟩ := c.code_range
    exact ⟨hf.control, hf.busy, Or.inr ⟨_, _, h1, h6, hf⟩, fun hd _ => by simp [hd],
      fun _ _ => ⟨hf.klen, hf.key⟩, fun _ _ => ⟨hf.zpad, hf.opad⟩, fun _ => hf.len, fun _ => hf.buf⟩
  | success u =>
    have hs := succeeded_commit u s
    exact ⟨hs.control, hs.busy, Or.inl hs, fun _ he => by simp [he],
      (writeSet_of_success hr).commit_frame s⟩

/-! ## Cells above a result (20_memory.md R40 (c)) -/

/-- Above its live range a committed memory holds the next draw. -/
theorem Fits.commit_free {s : State} {u : Updates} (hf : Fits s u) (hc : s.cfg.Legal) :
    (u.buf.isSome = true → (s.commit u).bufEpoch = s.bufEpoch + 1 ∧
      ∀ k, (s.commit u).len.toNat ≤ k → (s.commit u).bufCell k = Config.freeBit (s.bufEpoch + 1) k) ∧
    (u.key.isSome = true → (s.commit u).keyEpoch = s.keyEpoch + 1 ∧
      ∀ k, (s.commit u).klen.toNat ≤ k → (s.commit u).keyEntry k = Config.freeEntry (s.keyEpoch + 1) k) := by
  refine ⟨fun hb => ⟨by simp [hb], fun k hk => ?_⟩, fun hk => ⟨by simp [hk], fun k hk' => ?_⟩⟩
  · obtain ⟨bits, hbits⟩ := Option.isSome_iff_exists.1 hb
    have habove : bits.length ≤ k := by rw [← (hf.buf bits hbits).2]; exact hk
    rw [commit_bufCell_of_some hbits, List.getElem?_eq_none habove, Option.getD_none]
  · obtain ⟨ws, hws⟩ := Option.isSome_iff_exists.1 hk
    obtain ⟨hle, hklen⟩ := hf.key ws hws
    have hword : ws.length < 2 ^ 32 := by have := hc.2; omega
    have habove : ws.length ≤ k := by
      rwa [commit_klen, hklen, Option.getD_some, toReg_toNat hword] at hk'
    rw [commit_keyEntry_of_some hws, List.getElem?_eq_none habove, Option.getD_none]

/-- Settles O35: the command succeeded, so what it commits fits the buffers and is in its write set. -/
theorem cellsAboveResultUnspecified : Obligations.CellsAboveResultUnspecified := by
  intro i s t hc hl _ hexec ht
  rw [exec_eq, Host.Outcome.next.injEq] at hexec
  subst hexec
  cases hr : resultOf i s with
  | fault c info => rw [hr] at ht; cases ht
  | success u =>
    obtain ⟨hbuf, hkey⟩ := (fits_of_success hc hl hr).commit_free hc
    have hw := writeSet_of_success hr
    exact ⟨fun hi => hbuf (hw.buf hi), fun hi => hkey (hw.key hi)⟩

/-! ## A running command is not disturbed (20_memory.md R33, R42) -/

/-- While the core is busy a transaction writes CTRL or STATUS, or has no effect. -/
theorem HostEffect.of_busy {s t : State} (h : HostEffect s t) (hb : s.busy = true) :
    t = s ∨ (∃ v, t = s.writeCtrl v) ∨ ∃ v, t = s.writeStatus v := by
  cases h with
  | same => exact Or.inl rfl
  | ctrl v => exact Or.inr (Or.inl ⟨v, rfl⟩)
  | status v => exact Or.inr (Or.inr ⟨v, rfl⟩)
  | advanceBidx hi | advanceKidx hi | chunk _ hi | exp _ hi | zpad _ hi | opad _ hi | bidx _ hi | kidx _ hi
  | accept _ hi | len _ hi | klen _ hi | bufCell _ hi | keyEntry _ hi => cases hi.symm.trans hb

/-- Settles O38: neither CTRL nor STATUS is an operand, an index, CMD or BUSY. -/
theorem runningCommandUndisturbed : Obligations.RunningCommandUndisturbed := by
  intro x s t r hb hx
  have heff : HostEffect s t := by
    have := transact_effect x s
    rwa [hx] at this
  obtain rfl | ⟨v, rfl⟩ | ⟨v, rfl⟩ := heff.of_busy hb
  · exact ⟨fun _ => rfl, fun _ => rfl, rfl, rfl, rfl, rfl, rfl, rfl, rfl, rfl, rfl, hb⟩
  · exact ⟨fun _ => rfl, fun _ => rfl, rfl, rfl, rfl, rfl, rfl, rfl, rfl, rfl, rfl, hb⟩
  · rw [writeStatus_eq]
    exact ⟨fun _ => rfl, fun _ => rfl, rfl, rfl, rfl, rfl, rfl, rfl, rfl, rfl, rfl, hb⟩

/-! ## SHRINK of a corrupted expansion (41_bit_expander.md section 3) -/

/-- Of the `m` cells from `lo` on, those that hold `b` and those that do not. -/
theorem count_add_filter_ne (s : State) (b : Bit) (lo m : Nat) :
    ((List.range m).map fun j => s.bufCell (lo + j)).count b +
      ((List.range m).filter fun j => s.bufCell (lo + j) != b).length = m := by
  rw [List.count, List.countP_map, ← List.countP_eq_length_filter]
  have hsum := List.length_eq_countP_add_countP (fun j => s.bufCell (lo + j) == b) (l := List.range m)
  rw [List.length_range] at hsum
  simpa [Function.comp_def, bne, Bool.beq_eq_decide_eq] using hsum.symm

/-- A window of an odd number of cells, fewer than half of which differ from `b`, shrinks to `b`. -/
theorem windowBit_of_few_errors (tie b : Bit) {s : State} {e q : Nat} (hodd : e % 2 = 1)
    (hfull : q * e + e ≤ s.len.toNat)
    (hfew : ((List.range e).filter fun j => s.bufCell (q * e + j) != b).length < (e + 1) / 2) :
    windowBit tie (window s.bufSeq e q) = b := by
  have hwin : window s.bufSeq e q = (List.range e).map fun j => s.bufCell (q * e + j) := by
    rw [window_bufSeq, Nat.min_eq_left (by omega)]
  have hcount := count_add_filter_ne s b (q * e) e
  apply windowBit_of_majority
  rw [hwin, List.length_map, List.length_range]
  omega

/-- Settles O26: every window is full and has a strict majority of its bit. -/
theorem corruptedExpansionShrinksBack : Obligations.CorruptedExpansionShrinksBack := by
  intro s b e he hodd hlen hfew
  have hpos : 0 < e := Int.pos_iff_toNat_pos.1 he
  refine ⟨_, exec_shrink_success he, ?_⟩
  rw [commit_shrinkUpdates_bufSeq he]
  apply List.ext_getElem
  · rw [shrinkSeq_length, bufSeq_length, hlen, ceilDiv_mul _ hpos]
  · intro q hq hb
    have hfull : q * e + e ≤ s.len.toNat := by
      rw [hlen, ← Nat.succ_mul]
      exact Nat.mul_le_mul_right e hb
    have hbit := windowBit_of_few_errors s.cfg.tieBit (b.getD q false) hodd hfull (hfew q hb)
    rw [List.getD_eq_getElem _ _ hb] at hbit
    rw [← hbit]
    simp [shrinkSeq, e]

/-! ## PERMUTE, its key, and REPLAY (42_bit_permutation.md R85) -/

/-- Settles O27: the key PERMUTE commits is well-formed for the sequence, and replaying it is the inverse. -/
theorem permuteThenReplay : Obligations.PermuteThenReplay := by
  intro s hc
  have hseq := commit_permuteUpdates_bufSeq s
  have hkey := commit_permuteUpdates_keySeq s
  have hwf := permuteCore_keyWellFormed s.bufSeq (signed32 s.chunk).toNat
  rw [← hkey, bufSeq_length] at hwf
  refine ⟨_, _, exec_permute_success s hc, exec_replay_success (s := s.commit (permuteUpdates s)) hc hwf,
    succeeded_commit _ _, succeeded_commit _ _, ?_, rfl, commit_sameKey rfl _, rfl⟩
  rw [commit_replayUpdates_bufSeq, hseq, hkey]
  exact replayCore_permuteCore _ _

/-- Settles O28: what `permuteCore` returns is what PERMUTE leaves in BUF and KEY. -/
theorem permuteBoundsAndPermutes : Obligations.PermuteBoundsAndPermutes := by
  intro s hc
  have hseq := commit_permuteUpdates_bufSeq s
  have hkey := commit_permuteUpdates_keySeq s
  have hbound := permuteCore_key_bound s.bufSeq (signed32 s.chunk).toNat
  have hperm := permuteCore_perm s.bufSeq (signed32 s.chunk).toNat
  have hwf := permuteCore_keyWellFormed s.bufSeq (signed32 s.chunk).toNat
  have hentry (k) := permuteCore_entry_bound s.bufSeq (signed32 s.chunk).toNat (k := k)
  rw [← hkey, bufSeq_length] at hbound hwf
  rw [← hseq] at hperm
  simp only [← hkey, bufSeq_length] at hentry
  rw [keySeq_length] at hbound
  exact ⟨_, exec_permute_success s hc, (keySeq_length _).symm, by omega, hbound, hwf, hentry, rfl,
    hperm.length_eq, hperm, hperm.count_eq true⟩

/-! ## The runs of a sequence and its transitions (42_bit_permutation.md R85 (d)) -/

/-- The runs of a sequence of the given lengths, the first of polarity `b`. -/
def runs (b : Bit) : List Nat → List Bit
  | [] => []
  | l :: ls => List.replicate l b ++ runs (!b) ls

/-- The runs whose polarities are taken from the parity of their index, counted from `k` on. -/
theorem flatten_zipIdx_eq_runs (b : Bit) (ls : List Nat) (k : Nat) :
    ((ls.zipIdx k).map fun x => List.replicate x.1 (b ^^ decide (x.2 % 2 = 1))).flatten =
      runs (b ^^ decide (k % 2 = 1)) ls := by
  induction ls generalizing k with
  | nil => rfl
  | cons l ls ih =>
    have hparity : (b ^^ decide ((k + 1) % 2 = 1)) = !(b ^^ decide (k % 2 = 1)) := by
      rcases Nat.mod_two_eq_zero_or_one k with h | h <;> simp [Nat.add_mod, h]
    rw [List.zipIdx_cons, List.map_cons, List.flatten_cons, ih, hparity]
    rfl

theorem transitions_cons_cons (a b : Bit) (t : List Bit) : transitions (a :: b :: t) =
    (if a = b then [] else [0]) ++ (transitions (b :: t)).map (· + 1) := by
  have hlen : (a :: b :: t).length - 1 = (b :: t).length - 1 + 1 := by simp
  rw [transitions, hlen, List.range_succ_eq_map, List.filter_cons, List.filter_map, transitions]
  by_cases hab : a = b <;> simp [hab, Function.comp_def]

/-- A run has no transition but at its last bit. -/
theorem transitions_replicate_append (b : Bit) (n : Nat) (t : List Bit) :
    transitions (List.replicate (n + 1) b ++ (!b) :: t) = n :: (transitions ((!b) :: t)).map (· + (n + 1)) := by
  induction n with
  | zero => simp [transitions_cons_cons]
  | succ n ih =>
    rw [List.replicate_succ, List.cons_append, List.replicate_succ, List.cons_append, transitions_cons_cons,
      ← List.cons_append, ← List.replicate_succ, ih]
    simp [Nat.add_assoc]

theorem transitions_replicate (b : Bit) (n : Nat) : transitions (List.replicate n b) = [] := by
  rw [transitions, List.filter_eq_nil_iff]
  intro i hi
  rw [List.length_replicate, List.mem_range] at hi
  simp [show i < n by omega, show i + 1 < n by omega]

theorem keyPositionsFrom_eq_map (base : Nat) (ks : List Nat) :
    keyPositionsFrom base ks = (keyPositions ks).map (· + base) := by
  suffices h : ∀ lo, keyPositionsFrom (lo + base) ks = (keyPositionsFrom lo ks).map (· + base) by
    simpa [keyPositions] using h 0
  induction ks with
  | nil => exact fun _ => rfl
  | cons k ks ih =>
    intro lo
    rw [keyPositionsFrom, keyPositionsFrom, List.map_cons, ← ih, Nat.add_right_comm lo base k,
      Nat.add_right_comm (lo + k) base 1]

theorem keyPositions_cons (k : Nat) (ks : List Nat) :
    keyPositions (k :: ks) = k :: (keyPositions ks).map (· + (k + 1)) := by
  rw [keyPositions, keyPositionsFrom, keyPositionsFrom_eq_map, Nat.zero_add]

/-- The positions determine the key. -/
theorem keyPositions_injective {ks ks' : List Nat} (h : keyPositions ks = keyPositions ks') : ks = ks' := by
  induction ks generalizing ks' with
  | nil =>
    have hlen := congrArg List.length h
    rw [keyPositions_length, keyPositions_length] at hlen
    exact (List.length_eq_zero_iff.1 hlen.symm).symm
  | cons k ks ih =>
    cases ks' with
    | nil => cases h
    | cons k' ks' =>
      rw [keyPositions_cons, keyPositions_cons, List.cons.injEq] at h
      obtain ⟨rfl, htail⟩ := h
      rw [ih ((List.map_injective_iff.2 (add_left_injective (k + 1))) htail)]

/-- Runs that are not empty begin with the first polarity. -/
theorem runs_eq_cons (b : Bit) {ls : List Nat} (hls : ∀ x ∈ ls, 1 ≤ x) (hne : ls ≠ []) :
    ∃ t, runs b ls = b :: t := by
  obtain ⟨l, ls', rfl⟩ := List.exists_cons_of_ne_nil hne
  obtain ⟨n, rfl⟩ := Nat.exists_eq_succ_of_ne_zero (Nat.one_le_iff_ne_zero.1 (hls l List.mem_cons_self))
  exact ⟨_, by rw [runs, List.replicate_succ, List.cons_append]⟩

/-- The transitions of runs are the positions of the run lengths less one, the last run left out. -/
theorem transitions_runs (b : Bit) {ls : List Nat} {l : Nat} (hls : ∀ x ∈ ls ++ [l], 1 ≤ x) :
    transitions (runs b (ls ++ [l])) = keyPositions (ls.map (· - 1)) := by
  induction ls generalizing b with
  | nil => simp [runs, transitions_replicate]
  | cons x ls ih =>
    rw [List.cons_append] at hls ⊢
    obtain ⟨hx, htail⟩ := List.forall_mem_cons.1 hls
    obtain ⟨n, rfl⟩ := Nat.exists_eq_succ_of_ne_zero (Nat.one_le_iff_ne_zero.1 hx)
    obtain ⟨t, ht⟩ := runs_eq_cons (!b) htail (by simp)
    rw [runs, ht, transitions_replicate_append, ← ht, ih _ htail, List.map_cons,
      keyPositions_cons]
    rfl

/-! ## The sequences PERMUTE leaves as they are (42_bit_permutation.md R85 (d), (e)) -/

/-- With chunk size 1 the live sequence is the sequence itself, and so are its transitions. -/
theorem liveTransitions_one (s : List Bit) : liveTransitions s 1 = transitions s := by
  simp only [liveTransitions, transitions, scanUpTo_one_seq]

theorem permuteCore_one_fst (s : List Bit) : (permuteCore s 1).1 = s :=
  scanUpTo_one_seq s (s.length - 1)

/-- With at most one bit the scan visits no index. -/
theorem permuteCore_fst_of_length_le_one {s : List Bit} (c : Nat) (h : s.length ≤ 1) :
    (permuteCore s c).1 = s := by
  rw [permuteCore, permuteScan, Nat.sub_eq_zero_of_le h, scanUpTo_zero]

theorem permuteCore_replicate_fst (b : Bit) (n c : Nat) :
    (permuteCore (List.replicate n b) c).1 = List.replicate n b := by
  rcases Nat.eq_zero_or_pos n with rfl | hn
  · rfl
  · exact scanUpTo_replicate_seq b n c _ (by rw [List.length_replicate]; omega)

/-- With chunk size 1 the key of runs is their lengths less one, the last run left out. -/
theorem permuteCore_runs_key (b : Bit) {ls : List Nat} {l : Nat} (hls : ∀ x ∈ ls ++ [l], 1 ≤ x) :
    (permuteCore (runs b (ls ++ [l])) 1).2 = ls.map (· - 1) := by
  apply keyPositions_injective
  rw [keyPositions_permuteCore, liveTransitions_one, transitions_runs b hls]

theorem toNat_signed32_one {w : Word} (h : w = 1) : 0 < signed32 w ∧ (signed32 w).toNat = 1 := by
  subst h
  decide

/-- Settles O29: the three kinds of sequence that stay, the key of runs for CHUNK = 1, the positions of any key, and
the two examples evaluated. -/
theorem permuteFixedCases : Obligations.PermuteFixedCases := by
  refine ⟨fun s hc hfixed => ⟨_, exec_permute_success s hc, ?_⟩, fun s b ls l hchunk hls hl hruns => ?_,
    fun s hc => ⟨_, exec_permute_success s hc, ?_, ?_⟩, by decide, by decide, by decide, by decide⟩
  · rw [commit_permuteUpdates_bufSeq]
    obtain hone | hshort | ⟨b, huniform⟩ := hfixed
    · rw [(toNat_signed32_one hone).2, permuteCore_one_fst]
    · exact permuteCore_fst_of_length_le_one _ (by rwa [bufSeq_length])
    · rw [huniform, permuteCore_replicate_fst]
  · obtain ⟨hpos, hone⟩ := toNat_signed32_one hchunk
    have hall : ∀ x ∈ ls ++ [l], 1 ≤ x := by simpa [or_imp, forall_and] using ⟨hls, hl⟩
    have hseq : s.bufSeq = runs b (ls ++ [l]) := by
      rw [hruns, flatten_zipIdx_eq_runs]
      simp
    have hkey : (s.commit (permuteUpdates s)).keySeq = ls.map (· - 1) := by
      rw [commit_permuteUpdates_keySeq, hone, hseq, permuteCore_runs_key b hall]
    refine ⟨_, exec_permute_success s hpos, hkey, ?_⟩
    rw [← keySeq_length, hkey, List.length_map]
  · rw [commit_permuteUpdates_keySeq, keyPositions_permuteCore]
  · rw [commit_permuteUpdates_klen, ← keyPositions_permuteCore, keyPositions_length]

/-! ## GROUP then UNGROUP, and the two flows (44_group_ungroup.md R102) -/

section
variable {s : State} (hc : 0 < signed32 s.chunk)
include hc

theorem groupPadded_counts_lt :
    s.groupPadded.zp < (signed32 s.chunk).toNat ∧ s.groupPadded.op < (signed32 s.chunk).toNat :=
  padCore_counts_lt _ (Int.pos_iff_toNat_pos.1 hc)

variable (hword : s.groupPadded.out.length < 2 ^ 32)
include hword

/-- Depadding what GROUP commits gives the permuted sequence back. -/
theorem depadCore_commit_groupUpdates :
    let t := s.commit (groupUpdates s)
    depadCore t.bufSeq t.zpad.toNat t.opad.toNat = (permuteCore s.bufSeq (signed32 s.chunk).toNat).1 := by
  intro t
  rw [commit_groupUpdates_bufSeq hword, commit_groupUpdates_zpad hc, commit_groupUpdates_opad hc]
  exact depadCore_padCore _ _

/-- The counts GROUP leaves are in range, and its key is well-formed for the depadded length. -/
theorem exec_ungroup_group :
    let t := s.commit (groupUpdates s)
    exec .ungroup t = .next (t.commit (ungroupUpdates t)) := by
  intro t
  have hdepad := depadCore_commit_groupUpdates hc hword
  obtain ⟨hz, ho⟩ := groupPadded_counts_lt hc
  refine exec_ungroup_success hc ?_ ?_ ?_
  · rw [commit_groupUpdates_zpad hc]
    exact Int.lt_toNat.1 hz
  · rw [commit_groupUpdates_opad hc]
    exact Int.lt_toNat.1 ho
  · rw [hdepad, permuteCore_length, commit_groupUpdates_keySeq]
    exact permuteCore_keyWellFormed _ _

/-- UNGROUP after GROUP gives the sequence and LEN back. -/
theorem ungroup_group :
    let t := s.commit (groupUpdates s)
    let u := t.commit (ungroupUpdates t)
    u.bufSeq = s.bufSeq ∧ u.len = s.len := by
  intro t u
  have hdepad := depadCore_commit_groupUpdates hc hword
  constructor
  · rw [commit_ungroupUpdates_bufSeq, hdepad, commit_groupUpdates_keySeq]
    exact replayCore_permuteCore _ _
  · apply BitVec.eq_of_toNat_eq
    rw [commit_ungroupUpdates_len, hdepad, permuteCore_length, bufSeq_length]

end

/-- Settles O31: UNGROUP runs on what GROUP commits; the ranges are those of `padCore` and of the recorded key. -/
theorem groupThenUngroup : Obligations.GroupThenUngroup := by
  rintro s ⟨-, hmax⟩ hc c hcap
  have hpos : 0 < c := Int.pos_iff_toNat_pos.1 hc
  obtain ⟨hz, ho⟩ := groupPadded_counts_lt hc
  have hlen := groupPadded_length s
  have hfits : s.groupPadded.out.length ≤ s.cfg.nmax := by omega
  have hword : s.groupPadded.out.length < 2 ^ 32 := by omega
  have hkey := permuteCore_key_bound s.bufSeq (signed32 s.chunk).toNat
  rw [bufSeq_length] at hkey
  obtain ⟨hseq, hlen'⟩ := ungroup_group hc hword
  refine ⟨_, _, exec_group_success hc hfits, exec_ungroup_group hc hword, succeeded_commit _ _,
    succeeded_commit _ _, hseq, hlen', ?_, ?_, ?_, fun hne => ?_, ?_⟩
  · rw [commit_groupUpdates_zpad hc]
    exact hz
  · rw [commit_groupUpdates_opad hc]
    exact ho
  · rw [commit_groupUpdates_len hword, commit_groupUpdates_zpad hc, commit_groupUpdates_opad hc, hlen]
  · rw [commit_groupUpdates_bufSeq hword] at hne ⊢
    refine padCore_tail_mod (fun hnil => hne ?_) hpos
    rw [State.groupPadded, hnil, padCore_nil]
  · rw [commit_groupUpdates_klen]
    omega

/-- Settles O32: GROUP and UNGROUP give the expanded sequence back, which SHRINK takes to the original. -/
theorem encodeThenDecodeFlow : Obligations.EncodeThenDecodeFlow := by
  rintro s hlegal hc he hcap
  have hword : s.len.toNat * (signed32 s.exp).toNat < 2 ^ 32 := by have := hlegal.2; omega
  have hlen1 := commit_expandUpdates_len hword
  obtain ⟨t2, t3, hgroup, hungroup, hs2, hs3, hseq3, hlen3, -⟩ :=
    groupThenUngroup (s.commit (expandUpdates s)) hlegal hc (by rwa [hlen1])
  have hexp3 : t3.exp = s.exp := hs3.control.exp.trans hs2.control.exp
  have he3 : 0 < signed32 t3.exp := by rwa [hexp3]
  have hpos : 0 < (signed32 s.exp).toNat := Int.pos_iff_toNat_pos.1 he
  refine ⟨_, t2, t3, _, exec_expand_success he (by omega), hgroup, hungroup, exec_shrink_success he3,
    succeeded_commit _ _, hs2, hs3, succeeded_commit _ _, ?_, BitVec.eq_of_toNat_eq ?_⟩
  · rw [commit_shrinkUpdates_bufSeq he3, hexp3, hseq3, commit_expandUpdates_bufSeq hword]
    exact shrinkSeq_expandSeq _ _ hpos
  · rw [commit_shrinkUpdates_len he3, hexp3, hlen3, hlen1, ceilDiv_mul _ hpos]

/-! ## Runs of steps -/

/-- A run of any machine whose first step answers next goes on from there. -/
theorem run_succ_of_step {M : Host.Core} {s t : M.State} (h : M.step s = .next t) (k : Nat) :
    M.run (k + 1) s = M.run k t := by
  rw [Host.Core.run, h]

theorem run_succ {s t : State} (h : step s = .next t) (k : Nat) :
    Sys2Proof.core.run (k + 1) s = Sys2Proof.core.run k t :=
  run_succ_of_step (M := Sys2Proof.core) h k

theorem run_one {s t : State} (h : step s = .next t) : Sys2Proof.core.run 1 s = .next t :=
  run_succ h 0

/-- Two runs, one after the other. -/
theorem run_add {s t : State} {j : Nat} (h : Sys2Proof.core.run j s = .next t) (k : Nat) :
    Sys2Proof.core.run (j + k) s = Sys2Proof.core.run k t := by
  induction j generalizing s with
  | zero =>
    cases h
    rw [Nat.zero_add]
  | succ j ih =>
    obtain ⟨u, hu⟩ := everyStepAnswersNext s
    rw [run_succ hu] at h
    rw [Nat.succ_add, run_succ hu, ih h]

/-! ## The core and a running command (40_command_control.md R61) -/

/-- A completion ends BUSY and leaves the script as it is. -/
theorem step_completes {s : State} (h : s.completesNow = true) :
    ∃ t, step s = .next t ∧ t.busy = false ∧ t.script = s.script := by
  obtain ⟨r, hr, -⟩ := completeCommand_eq s
  refine ⟨s.complete r, (step_of_completesNow h).trans hr, ?_⟩
  cases r <;> exact ⟨rfl, rfl⟩

/-- Performing a line ends BUSY, if the line is `rst`, or leaves the command running with one transaction fewer to
come. -/
theorem performLine_busy {s : State} (l : Line) (hb : s.busy = true) :
    (performLine l s).busy = false ∨
      (performLine l s).busy = true ∧ (performLine l s).delay = s.delay - 1 := by
  obtain ⟨-, hp⟩ | ⟨x, -, hp⟩ := performLine_cases l s <;> rw [hp]
  · exact Or.inl rfl
  · obtain ⟨hbusy, hdelay, -⟩ := (transact_effect x s.tick).busy hb
    exact Or.inr ⟨hbusy, hdelay⟩

/-- Settles O47: by induction on the drawn delay; each step completes, or performs a line. -/
theorem acceptedCommandCompletes : Obligations.AcceptedCommandCompletes := by
  intro s hb
  induction hd : s.delay generalizing s with
  | zero =>
    obtain ⟨t, hst, hidle, -⟩ := step_completes (completesNow_eq_true hb (Or.inl hd))
    exact ⟨1, le_rfl, t, run_one hst, hidle⟩
  | succ d ih =>
    cases hs : s.script with
    | nil =>
      obtain ⟨t, hst, hidle, -⟩ := step_completes (completesNow_eq_true hb (Or.inr hs))
      exact ⟨1, by omega, t, run_one hst, hidle⟩
    | cons l ls =>
      have hc : s.completesNow = false := by simp [State.completesNow, hd, hs]
      have hst := step_of_line hc hs
      obtain hidle | ⟨hbusy, hdelay⟩ := performLine_busy (s := { s with script := ls }) l hb
      · exact ⟨1, by omega, _, run_one hst, hidle⟩
      · obtain ⟨k, hk, t, hrun, hidle⟩ := ih _ hbusy (hdelay.trans (by simp [hd]))
        exact ⟨k + 1, by omega, t, (run_succ hst k).trans hrun, hidle⟩

/-! ## WAIT (30_encoding.md R55) -/

/-- WAIT reads STATUS and is done when BUSY reads 0; otherwise it stands at the head of the script again. -/
theorem performLine_wait (s : State) :
    performLine .wait s = { s.tick with
      script := (if s.busy then [.wait] else []) ++ s.script
      log := (rdOf .status, .value s.statusWord) :: s.log } := by
  have hread : transact (rdOf .status) s.tick = (s.tick, .value s.statusWord) := hostRead_control .status rfl
  have hbit : wordBit s.statusWord 0 = s.busy := (statusWord_getLsbD s 0).trans (by simp)
  rw [performLine_of_transact (l := .wait) rfl hread, Line.rest, hbit]

theorem step_wait {s : State} {ls : List Line} (hc : s.completesNow = false) (hs : s.script = .wait :: ls) :
    ∃ t, step s = .next t ∧ t.busy = s.busy ∧ t.delay = s.delay - 1 ∧
      t.script = (if s.busy then [.wait] else []) ++ ls := by
  refine ⟨_, step_of_line hc hs, ?_⟩
  rw [performLine_wait]
  exact ⟨rfl, rfl, rfl⟩

/-- On an idle core WAIT ends with its first read. -/
theorem run_wait_idle {s : State} {ls : List Line} (hb : s.busy = false) (hs : s.script = .wait :: ls) :
    ∃ t : State, Sys2Proof.core.run 1 s = .next t ∧ t.busy = false ∧ t.script = ls := by
  obtain ⟨t, hst, hbusy, -, hscript⟩ := step_wait (completesNow_idle hb) hs
  rw [hb] at hbusy hscript
  exact ⟨t, run_one hst, hbusy, hscript⟩

/-- Settles O48: while the command runs, by induction on the drawn delay, WAIT polls; after the completion its next
read is the last. -/
theorem waitTerminates : Obligations.WaitTerminates := by
  intro s ls hs
  cases hb : s.busy with
  | false => exact ⟨1, by omega, run_wait_idle hb hs⟩
  | true =>
    induction hd : s.delay generalizing s with
    | zero =>
      obtain ⟨t, hst, hidle, hscript⟩ := step_completes (completesNow_eq_true hb (Or.inl hd))
      exact ⟨2, le_rfl, by rw [run_succ hst]; exact run_wait_idle hidle (hscript.trans hs)⟩
    | succ d ih =>
      have hc : s.completesNow = false := by simp [State.completesNow, hd, hs]
      obtain ⟨t, hst, hbusy, hdelay, hscript⟩ := step_wait hc hs
      rw [hb] at hbusy hscript
      rw [hd] at hdelay
      obtain ⟨k, hk, hrun⟩ := ih t hscript hbusy hdelay
      exact ⟨k + 1, by omega, by rwa [run_succ hst]⟩

/-! ## Script lines on an idle core (30_encoding.md R54, R55) -/

/-- The state in which the first transaction of the script's head line is performed, `ls` the lines after it. -/
def State.takeLine (ls : List Line) (s : State) : State := { s with script := ls, delay := s.delay - 1 }

/-- Setting AINC by what was read of CTRL keeps IE. -/
theorem writeCtrl_ctrlWord_or (s : State) : s.writeCtrl (s.ctrlWord ||| 0x2#32) = { s with ainc := true } := by
  have hie : wordBit (s.ctrlWord ||| 0x2#32) 0 = s.ie := by
    rw [wordBit, BitVec.getLsbD_or, ctrlWord_getLsbD]
    simp
  have hainc : wordBit (s.ctrlWord ||| 0x2#32) 1 = true := by simp [wordBit]
  rw [State.writeCtrl, hie, hainc]

section
variable {s : State} {ls : List Line} (hb : s.busy = false)
include hb

/-- A step of an idle core: the first transaction of the line at the head of the script. -/
theorem step_idle_line {t : State} {l : Line} {x : Transaction} {r : Reply} (hs : s.script = l :: ls)
    (hx : l.first = some x) (ht : transact x (s.takeLine ls) = (t, r)) :
    step s = .next { t with script := l.rest r ++ ls, log := (x, r) :: s.log } := by
  rw [step_of_line (completesNow_idle hb) hs]
  exact congrArg _ (performLine_of_transact hx ht)

/-- A line that begins with a read. -/
theorem step_idle_read {t : State} {l : Line} {r : Reg} {v : Word} (hs : s.script = l :: ls)
    (hx : l.first = some (rdOf r)) (hv : readReg r (s.takeLine ls) = (t, .value v)) :
    step s = .next { t with script := l.rest (.value v) ++ ls, log := (rdOf r, .value v) :: s.log } :=
  step_idle_line hb hs hx ((hostRead_idle (s := s.takeLine ls) r hb).trans hv)

/-- A line that writes a register. -/
theorem step_idle_write {t : State} {r : Reg} {v : Word} (hs : s.script = .wr r v :: ls)
    (hw : writeReg r v (s.takeLine ls) = (t, .ok)) :
    step s = .next { t with script := ls, log := (wrOf r v, .ok) :: s.log } :=
  step_idle_line hb hs rfl ((hostWrite_idle (s := s.takeLine ls) r v hb).trans hw)

end

section
variable {s : State} (ha : s.ainc = true) (h : s.bidx.toNat < s.cfg.nmax)
include ha h

/-- A write of BDATA with AINC set (20_memory.md R34, R36). -/
theorem writeReg_bdata_ainc (b : Bit) : writeReg .bdata (zextBit b) s =
    ({ s.writeBufCell s.bidx.toNat b with bidx := s.bidx + 1 }, .ok) := by
  have hbit : wordBit (zextBit b) 0 = b := (zextBit_getLsbD b 0).trans (by simp)
  rw [(bdata_in_range (zextBit b) h).2, hbit, State.advanceBidx]
  simp [ha]

/-- A read of BDATA with AINC set (20_memory.md R34, R36). -/
theorem readReg_bdata_ainc : readReg .bdata s =
    ({ s with bidx := s.bidx + 1 }, .value (zextBit (s.bufCell s.bidx.toNat))) := by
  rw [(bdata_in_range 0 h).1, State.advanceBidx, ha]
  rfl

end

/-- Below the end of BUF the index does not wrap. -/
theorem toNat_add_one_of_lt {w : Word} {c : Config} (hc : c.Legal) (h : w.toNat < c.nmax) :
    (w + 1).toNat = w.toNat + 1 := by
  have hmax := hc.2
  have hone : (1 : Word).toNat = 1 := rfl
  rw [BitVec.toNat_add_of_lt (by omega), hone]

/-- What a pass over BUF changes at most: cells, BIDX, and the host's own fields. -/
def PassFrame (s t : State) : Prop :=
  t = { s with buf := t.buf, bidx := t.bidx, delay := t.delay, script := t.script, log := t.log }

section
variable {s t u : State} (h : PassFrame s t)
include h

theorem PassFrame.trans (h' : PassFrame t u) : PassFrame s u :=
  Eq.trans h' (congrArg (fun x : State =>
    { x with buf := u.buf, bidx := u.bidx, delay := u.delay, script := u.script, log := u.log }) h)

theorem PassFrame.map_eq {α : Type} (f : State → α) :
    f t = f { s with buf := t.buf, bidx := t.bidx, delay := t.delay, script := t.script, log := t.log } :=
  congrArg f h

theorem PassFrame.cfg : t.cfg = s.cfg := h.map_eq State.cfg

theorem PassFrame.busy : t.busy = s.busy := h.map_eq State.busy

theorem PassFrame.ainc : t.ainc = s.ainc := h.map_eq State.ainc

/-- The frame is the same with AINC set before the pass. -/
theorem PassFrame.setAinc : PassFrame { s with ainc := true } { t with ainc := true } :=
  (h.map_eq fun x => { x with ainc := true } :)

/-- A pass that writes no cell leaves every cell. -/
theorem PassFrame.bufCell (hbuf : t.buf = s.buf) (k : Nat) : t.bufCell k = s.bufCell k := by
  have hepoch : t.bufEpoch = s.bufEpoch := h.map_eq State.bufEpoch
  rw [State.bufCell, State.bufCell, hbuf, hepoch]

end

section
variable {s : State} {ls : List Line} (hb : s.busy = false) (hc : s.cfg.Legal) (ha : s.ainc = true)
include hb hc ha

/-- One write of a pass. -/
theorem step_write_pass {b : Bit} (hin : s.bidx.toNat < s.cfg.nmax)
    (hs : s.script = .wr .bdata (zextBit b) :: ls) :
    ∃ t, step s = .next t ∧ PassFrame s t ∧ t.script = ls ∧ t.bidx.toNat = s.bidx.toNat + 1 ∧
      t.bufCell s.bidx.toNat = b ∧ ∀ k, k ≠ s.bidx.toNat → t.bufCell k = s.bufCell k :=
  ⟨_, step_idle_write hb hs (writeReg_bdata_ainc (s := s.takeLine ls) ha hin b), rfl, rfl,
    toNat_add_one_of_lt hc hin, bufCell_writeBufCell_same s _ b, fun _ => bufCell_writeBufCell_other s b⟩

/-- A pass of writes through the data port, from BIDX on. -/
theorem run_write_pass (bits : List Bit) (hfit : s.bidx.toNat + bits.length ≤ s.cfg.nmax)
    (hs : s.script = bits.map (fun b => .wr .bdata (zextBit b)) ++ ls) :
    ∃ t : State, Sys2Proof.core.run bits.length s = .next t ∧ PassFrame s t ∧ t.script = ls ∧
      t.bidx.toNat = s.bidx.toNat + bits.length ∧
      ∀ k, t.bufCell k =
        if s.bidx.toNat ≤ k then (bits[k - s.bidx.toNat]?).getD (s.bufCell k) else s.bufCell k := by
  induction bits generalizing s with
  | nil => exact ⟨s, rfl, rfl, hs, rfl, fun k => by simp⟩
  | cons b bits ih =>
    rw [List.length_cons] at hfit
    obtain ⟨t, hst, hframe, hscript, hidx, hsame, hother⟩ := step_write_pass hb hc ha (by omega) hs
    obtain ⟨u, hrun, hframe', hscript', hidx', hcell⟩ := ih (s := t) (hframe.busy.trans hb)
      (by rwa [hframe.cfg]) (hframe.ainc.trans ha) (by rw [hidx, hframe.cfg]; omega) hscript
    refine ⟨u, (run_succ hst _).trans hrun, hframe.trans hframe', hscript',
      by rw [hidx', hidx, List.length_cons]; omega, fun k => ?_⟩
    rw [hcell, hidx]
    rcases Nat.lt_trichotomy k s.bidx.toNat with hlt | rfl | hgt
    · rw [if_neg (by omega), if_neg (by omega), hother k (by omega)]
    · simp [hsame]
    · obtain ⟨j, rfl⟩ := Nat.exists_eq_add_of_lt hgt
      rw [if_pos (by omega), if_pos (by omega), hother _ (by omega), Nat.add_assoc s.bidx.toNat,
        Nat.add_sub_cancel_left, List.getElem?_cons_succ]
      congr 3
      omega

/-- One read of a pass, and what the host records of it. -/
theorem step_read_pass (hin : s.bidx.toNat < s.cfg.nmax) (hs : s.script = .rd .bdata :: ls) :
    ∃ t, step s = .next t ∧ PassFrame s t ∧ t.buf = s.buf ∧ t.script = ls ∧
      t.bidx.toNat = s.bidx.toNat + 1 ∧
      t.log = (rdOf .bdata, .value (zextBit (s.bufCell s.bidx.toNat))) :: s.log :=
  ⟨_, step_idle_read hb hs rfl (readReg_bdata_ainc (s := s.takeLine ls) ha hin), rfl, rfl, rfl,
    toNat_add_one_of_lt hc hin, rfl⟩

/-- A pass of reads through the data port, from BIDX on: the record holds the cells, the latest first. -/
theorem run_read_pass (n : Nat) (hfit : s.bidx.toNat + n ≤ s.cfg.nmax)
    (hs : s.script = List.replicate n (.rd .bdata) ++ ls) :
    ∃ t : State, Sys2Proof.core.run n s = .next t ∧ PassFrame s t ∧ t.buf = s.buf ∧ t.script = ls ∧
      t.log = ((List.range n).map fun j =>
        (rdOf .bdata, Reply.value (zextBit (s.bufCell (s.bidx.toNat + j))))).reverse ++ s.log := by
  induction n generalizing s with
  | zero => exact ⟨s, rfl, rfl, rfl, hs, rfl⟩
  | succ n ih =>
    obtain ⟨t, hst, hframe, hbuf, hscript, hidx, hlog⟩ := step_read_pass hb hc ha (by omega) hs
    obtain ⟨u, hrun, hframe', hbuf', hscript', hlog'⟩ := ih (s := t) (hframe.busy.trans hb)
      (by rwa [hframe.cfg]) (hframe.ainc.trans ha) (by rw [hidx, hframe.cfg]; omega) hscript
    refine ⟨u, (run_succ hst _).trans hrun, hframe.trans hframe', hbuf'.trans hbuf, hscript', ?_⟩
    rw [hlog', hlog, List.range_succ_eq_map]
    simp [hframe.bufCell hbuf, hidx, Function.comp_def, Nat.add_assoc, Nat.add_comm 1]

end

/-! ## LOADBITS and READBITS (30_encoding.md R55) -/

section
variable {s : State} {ls : List Line} (hb : s.busy = false)
include hb

/-- A line that reads CTRL, sets AINC by what it read, and starts a pass over BUF at index 0. -/
theorem run_start_pass {l : Line} {ls' : List Line} (hs : s.script = l :: ls) (hx : l.first = some (rdOf .ctrl))
    (hrest : l.rest (.value s.ctrlWord) ++ ls = ainc s.ctrlWord :: .wr .bidx 0 :: ls') :
    ∃ t : State, Sys2Proof.core.run 3 s = .next t ∧ PassFrame { s with ainc := true } t ∧ t.buf = s.buf ∧
      t.bidx = 0 ∧ t.script = ls' := by
  have hread := step_idle_read (t := s.takeLine ls) (v := s.ctrlWord) hb hs hx rfl
  rw [hrest] at hread
  have hctrl := step_idle_write (s := { s.takeLine ls with
    script := ainc s.ctrlWord :: .wr .bidx 0 :: ls', log := (rdOf .ctrl, .value s.ctrlWord) :: s.log })
    hb rfl (congrArg (·, Reply.ok) (writeCtrl_ctrlWord_or (State.takeLine _ _)))
  have hbidx := step_idle_write (s := { s.takeLine ls with
    ainc := true, delay := s.delay - 1 - 1, script := .wr .bidx 0 :: ls'
    log := (wrOf .ctrl (s.ctrlWord ||| 0x2#32), .ok) :: (rdOf .ctrl, .value s.ctrlWord) :: s.log }) hb rfl rfl
  exact ⟨_, (run_succ hread 2).trans ((run_succ hctrl 1).trans (run_one hbidx)), rfl, rfl, rfl, rfl⟩

/-- A write of LEN in range (20_memory.md R37). -/
theorem step_write_len {v : Word} (hv : v.toNat ≤ s.cfg.nmax) (hs : s.script = .wr .len v :: ls) :
    step s = .next { s.takeLine ls with len := v, script := ls, log := (wrOf .len v, .ok) :: s.log } :=
  step_idle_write hb hs (if_neg (Nat.not_lt.2 hv))

/-- READBITS begins with a read of LEN, which says how many bits there are to read. -/
theorem step_readBits (hs : s.script = .readBits :: ls) :
    ∃ t, step s = .next t ∧ PassFrame s t ∧ t.buf = s.buf ∧
      t.script = .setAinc :: .wr .bidx 0 :: (List.replicate s.len.toNat (.rd .bdata) ++ ls) :=
  ⟨_, step_idle_read (t := s.takeLine ls) (r := .len) (v := s.len) hb hs rfl rfl, rfl, rfl, rfl⟩

end

/-- Settles O49: the read of CTRL and the start of the pass, the pass of writes, and the write of LEN. -/
theorem loadBitsLoads : Obligations.LoadBitsLoads := by
  intro s bits ls hc hb hfit hs
  have hlen : (toReg bits.length).toNat = bits.length := toReg_toNat (by have := hc.2; omega)
  obtain ⟨t, hstart, hframe, hbuf, hzero, hscript⟩ := run_start_pass
    (ls' := bits.map (fun b => .wr .bdata (zextBit b)) ++ .wr .len (toReg bits.length) :: ls)
    hb hs rfl (by simp [Line.rest])
  obtain ⟨u, hpass, hframe', hscript', hidx, hcell⟩ := run_write_pass (hframe.busy.trans hb)
    (by rwa [hframe.cfg]) hframe.ainc bits (by simpa [hzero, hframe.cfg] using hfit) hscript
  have hall := hframe.trans hframe'
  have hwrite := step_write_len (hall.busy.trans hb) (by rw [hlen, hall.cfg]; exact hfit) hscript'
  have hrun := (run_add hstart (bits.length + 1)).trans ((run_add hpass 1).trans (run_one hwrite))
  rw [show 3 + (bits.length + 1) = bits.length + 4 by omega] at hrun
  have hread (k : Nat) : u.bufCell k = (bits[k]?).getD (s.bufCell k) := by
    have hold : t.bufCell k = s.bufCell k := hframe.bufCell hbuf k
    simpa [hzero, hold] using hcell k
  rw [hzero] at hidx
  refine ⟨_, hrun, bufSeq_eq_of_cells hlen fun k hk => ?_, hlen, hidx.trans (Nat.zero_add _), hall.ainc,
    fun k hk => ?_, ?_⟩
  · refine (hread k).trans ?_
    rw [List.getElem?_eq_getElem hk, Option.getD_some]
  · refine (hread k).trans ?_
    rw [List.getElem?_eq_none hk, Option.getD_none]
  · exact hall.map_eq fun x => { x.takeLine ls with
      len := toReg bits.length, script := ls, log := (wrOf .len (toReg bits.length), .ok) :: x.log }

/-- Settles O50: the reads of LEN and CTRL, the start of the pass, and the pass of reads. -/
theorem readBitsReads : Obligations.ReadBitsReads := by
  intro s ls hc hb hfit hs
  obtain ⟨r, hread, hframe, hbuf, hscript⟩ := step_readBits hb hs
  obtain ⟨t, hstart, hframe', hbuf', hzero, hscript'⟩ := run_start_pass (hframe.busy.trans hb) hscript rfl rfl
  have hpre := hframe.setAinc.trans hframe'
  obtain ⟨u, hpass, hframe'', hbuf'', hscript'', hlog⟩ := run_read_pass (hpre.busy.trans hb)
    (by rwa [hpre.cfg]) hpre.ainc s.len.toNat (by simpa [hzero, hpre.cfg] using hfit) hscript'
  have hrun := (run_succ hread _).trans ((run_add hstart s.len.toNat).trans hpass)
  rw [show 3 + s.len.toNat + 1 = s.len.toNat + 4 by omega] at hrun
  have hcell (k : Nat) : t.bufCell k = s.bufCell k := hpre.bufCell (hbuf'.trans hbuf) k
  refine ⟨u, hrun, ?_, ?_⟩
  · rw [hlog, List.take_left' (by simp), List.reverse_reverse, State.bufSeq, List.map_map]
    simp [hzero, hcell, rdOf, Reg.offset, zextBit]
  · have hall := hpre.trans hframe''
    rw [PassFrame, hbuf'', hbuf', hbuf, hscript''] at hall
    exact hall

end Sys2Proof.Machine
end
